-- ==== Sys2Proof/Word.lean ====
section
/-! DEFINITION. The widths of the machine's values (00_scope R8, R12, R18): bytes, 16-bit words, the 4-bit and
12-bit instruction fields. -/

namespace Sys2Proof

/-- An 8-bit value: a general register, a timer, a memory byte, the field kk (R8, R18). -/
abbrev Byte := BitVec 8

/-- A 16-bit value: an instruction word, PC, I, a stack entry (R8, R24, R26, R30). -/
abbrev Word := BitVec 16

/-- A 4-bit field: a register index x or y, or the sprite height n (R18, R92). -/
abbrev Nibble := BitVec 4

/-- A 12-bit field: the address nnn (R18, R93). -/
abbrev Addr := BitVec 12

end Sys2Proof
end

