-- ==== Sys2Proof/Machine/Flags.lean ====
section
/-! DEFINITION. The arithmetic results and the values written to VF as a flag (10_state R23, 41_alu R177 to R181, R190). -/

namespace Sys2Proof.Machine

/-- 1 or 0. -/
def bit (b : Bool) : Byte := if b then 1 else 0

/-- The carry of `8xy4`: 1 if a + b > 255 (R177). -/
def carryFlag (a b : Byte) : Byte := bit (decide (a.toNat + b.toNat > 255))

/-- The flag of `8xy5` and, operands swapped, of `8xy7`: 1 exactly when a > b (R178, R180). -/
def aboveFlag (a b : Byte) : Byte := bit (decide (a.toNat > b.toNat))

/-- a - b if a > b, else 0 (R178, R180). -/
def subSaturating (a b : Byte) : Byte := if a.toNat > b.toNat then a - b else 0

/-- The flag of `8xy6`: a AND 1 (R179). -/
def shrFlag (a : Byte) : Byte := a &&& 1

/-- The flag of `8xyE`: a AND 0x80 when SHL_VF_RAW, else a >> 7 (R181). -/
def shlFlag (raw : Bool) (a : Byte) : Byte := if raw then a &&& 0x80 else a >>> 7

end Sys2Proof.Machine
end

