-- ==== Sys2Proof/Config.lean ====
section
/-! DEFINITION. What is fixed for this hardware: the sizes of 00_scope R8 and R9, the behaviour parameters of
00_scope R10 at their defaults ("the default is the behaviour of this hardware"), and the one free value, the random
byte of `Cxkk`. -/

namespace Sys2Proof.Config

/-- MEM_SIZE (R8): addresses 0x000 to 0xFFF. -/
abbrev memSize : Nat := 4096

/-- PROG_START (R8). -/
abbrev progStart : Nat := 0x200

/-- GLYPH_BASE (R8). -/
abbrev glyphBase : Nat := 0

/-- The size of the glyph region, 80 bytes (R8, 20_memory R61). -/
abbrev glyphSize : Nat := 80

/-- STACK_DEPTH (R8). -/
abbrev stackDepth : Nat := 16

/-- DISPLAY_WIDTH (R9). DESIGN CHOICE of the spec (D1), log entry 4. -/
abbrev displayWidth : Nat := 64

/-- DISPLAY_HEIGHT (R9). DESIGN CHOICE of the spec (D1), log entry 4. -/
abbrev displayHeight : Nat := 32

/-- The legal values of DRAW_VERTICAL (R10, 43_display R257). -/
inductive VerticalPolicy where
  /-- rows past the bottom edge are dropped -/
  | clip
  /-- rows past the bottom edge continue at the top -/
  | wrap
  /-- a sprite that reaches past the bottom edge raises DRAW_OUT_OF_RANGE -/
  | fault
deriving DecidableEq, Repr

/-- ANNN_EXTRA_ADVANCE (R10, D15), at its default. Log entry 2. -/
abbrev annnExtraAdvance : Bool := true

/-- SHL_VF_RAW (R10, D16), at its default. Log entry 2. -/
abbrev shlVfRaw : Bool := true

/-- DRAW_VERTICAL (R10, D19), at its default. Log entry 2. -/
abbrev drawVertical : VerticalPolicy := .clip

/-- The values of GLYPH_TABLE (R10, 20_memory R63): 80 bytes, glyph d at 5 * d (R62). -/
abbrev GlyphTable := Vector Byte glyphSize

/-- The byte of a glyph table at an address (GLYPH_BASE is 0, R62); past the table there is 0 (R66). -/
def GlyphTable.byteAt (table : GlyphTable) (a : Nat) : Byte := table.toList.getD a 0

/-- The bytes of the default glyph table (20_memory R63), glyph after glyph. -/
def glyphBytes : List Byte :=
  [0xF0, 0x90, 0x90, 0x90, 0xF0] ++ [0x20, 0x60, 0x20, 0x20, 0x70] ++
  [0xF0, 0x10, 0xF0, 0x80, 0xF0] ++ [0xF0, 0x10, 0xF0, 0x10, 0xF0] ++
  [0x90, 0x90, 0xF0, 0x10, 0x10] ++ [0xF0, 0x80, 0xF0, 0x10, 0xF0] ++
  [0xF0, 0x80, 0xF0, 0x90, 0xF0] ++ [0xF0, 0x10, 0x20, 0x40, 0x40] ++
  [0xF0, 0x90, 0xF0, 0x90, 0xF0] ++ [0xF0, 0x90, 0xF0, 0x10, 0xF0] ++
  [0xF0, 0x90, 0xF0, 0x90, 0x90] ++ [0xE0, 0x90, 0xE0, 0x90, 0xE0] ++
  [0xF0, 0x80, 0x80, 0x80, 0xF0] ++ [0xE0, 0x90, 0x90, 0x90, 0xE0] ++
  [0xF0, 0x80, 0xF0, 0x80, 0xF0] ++ [0xF0, 0x80, 0xF0, 0x80, 0x80]

/-- GLYPH_TABLE (R10, 20_memory R63), at its default: digit 0 is the source's, digits 1 to F are PRESUMED (the common
CHIP-8 font, D3, G1). Log entry 3. What reads the table takes it as an argument (`State.Sized.resetWith`). -/
def glyphTable : GlyphTable := ⟨glyphBytes.toArray, rfl⟩

/-- RANDOM (R10, 41_alu R196): the k-th byte taken from the random source. A free value: nothing constrains it.
Log entry 1. -/
opaque randomByte : Nat → Byte

/-- The behaviour parameters of R10; the display size (R9) is an argument of the state's
type (`Machine.State.Sized`), and RANDOM is `randomByte`. They are no
state (10_state R44): what reads one takes it as an argument. -/
structure Params where
  /-- ANNN_EXTRA_ADVANCE -/
  annnExtraAdvance : Bool
  /-- SHL_VF_RAW -/
  shlVfRaw : Bool
  /-- DRAW_VERTICAL -/
  drawVertical : VerticalPolicy
  /-- GLYPH_TABLE -/
  glyphTable : GlyphTable
deriving DecidableEq, Repr

/-- Every behaviour parameter at its default, "the behaviour of this hardware" (R10). -/
def params : Params where
  annnExtraAdvance := annnExtraAdvance
  shlVfRaw := shlVfRaw
  drawVertical := drawVertical
  glyphTable := glyphTable

end Sys2Proof.Config
end

