-- ==== Sys2Proof/Syntax.lean ====
section
/-! DEFINITION. The instructions: one constructor for each row of the opcode table (30_encoding R97), in its order.
The operands are the fields the row uses (R90, R91); `shrVx` and `shlVx` keep the ignored field y (R101, R179, R181),
so that an instruction has exactly one word. -/

namespace Sys2Proof

inductive Instr where
  /-- `00E0` CLS (R254) -/
  | cls
  /-- `00EE` RET (R131) -/
  | ret
  /-- `1nnn` JP addr (R132) -/
  | jpAddr (nnn : Addr)
  /-- `2nnn` CALL addr (R133) -/
  | callAddr (nnn : Addr)
  /-- `3xkk` SE Vx, byte (R134) -/
  | seVxByte (x : Nibble) (kk : Byte)
  /-- `4xkk` SNE Vx, byte (R135) -/
  | sneVxByte (x : Nibble) (kk : Byte)
  /-- `5xy0` SE Vx, Vy (R136) -/
  | seVxVy (x y : Nibble)
  /-- `6xkk` LD Vx, byte (R171) -/
  | ldVxByte (x : Nibble) (kk : Byte)
  /-- `7xkk` ADD Vx, byte (R172) -/
  | addVxByte (x : Nibble) (kk : Byte)
  /-- `8xy0` LD Vx, Vy (R173) -/
  | ldVxVy (x y : Nibble)
  /-- `8xy1` OR Vx, Vy (R174) -/
  | orVxVy (x y : Nibble)
  /-- `8xy2` AND Vx, Vy (R175) -/
  | andVxVy (x y : Nibble)
  /-- `8xy3` XOR Vx, Vy (R176) -/
  | xorVxVy (x y : Nibble)
  /-- `8xy4` ADD Vx, Vy (R177) -/
  | addVxVy (x y : Nibble)
  /-- `8xy5` SUB Vx, Vy (R178) -/
  | subVxVy (x y : Nibble)
  /-- `8xy6` SHR Vx {, Vy} (R179) -/
  | shrVx (x y : Nibble)
  /-- `8xy7` SUBN Vx, Vy (R180) -/
  | subnVxVy (x y : Nibble)
  /-- `8xyE` SHL Vx {, Vy} (R181) -/
  | shlVx (x y : Nibble)
  /-- `9xy0` SNE Vx, Vy (R137) -/
  | sneVxVy (x y : Nibble)
  /-- `Annn` LD I, addr (R211) -/
  | ldIAddr (nnn : Addr)
  /-- `Bnnn` JP V0, addr (R138) -/
  | jpV0Addr (nnn : Addr)
  /-- `Cxkk` RND Vx, byte (R182) -/
  | rndVxByte (x : Nibble) (kk : Byte)
  /-- `Dxyn` DRW Vx, Vy, nibble (R255) -/
  | drwVxVyNibble (x y n : Nibble)
  /-- `Ex9E` SKP Vx (R139) -/
  | skpVx (x : Nibble)
  /-- `ExA1` SKNP Vx (R140) -/
  | sknpVx (x : Nibble)
  /-- `Fx07` LD Vx, DT (R212) -/
  | ldVxDT (x : Nibble)
  /-- `Fx0A` LD Vx, K (R213) -/
  | ldVxK (x : Nibble)
  /-- `Fx15` LD DT, Vx (R214) -/
  | ldDTVx (x : Nibble)
  /-- `Fx18` LD ST, Vx (R215) -/
  | ldSTVx (x : Nibble)
  /-- `Fx1E` ADD I, Vx (R216) -/
  | addIVx (x : Nibble)
  /-- `Fx29` LD F, Vx (R217) -/
  | ldFVx (x : Nibble)
  /-- `Fx33` LD B, Vx (R218) -/
  | ldBVx (x : Nibble)
  /-- `Fx55` LD [I], Vx (R219) -/
  | ldMemVx (x : Nibble)
  /-- `Fx65` LD Vx, [I] (R220) -/
  | ldVxMem (x : Nibble)
deriving DecidableEq, Repr

end Sys2Proof
end

