-- ==== Sys2Proof/WellFormed.lean ====
section
/-! DEFINITION. The checks on syntax and on what the host passes in. An `Instr` holds its operands at exactly the widths of the
encoding, every value of which is legal (R92, R93): its check refuses nothing, and `Instr.wellFormed_all` says so. The checks
that do refuse are those on a set of extracted fields (R90), on a row of the opcode table (R97), on a program
image (R52), on a glyph table (R63) and on a display size (R9). -/

namespace Sys2Proof

/-- The operand ranges of R92 and R93, read as numbers. -/
def Instr.wellFormed : Instr → Bool
  | .cls => true
  | .ret => true
  | .jpAddr nnn => nnn.toNat ≤ 0xFFF
  | .callAddr nnn => nnn.toNat ≤ 0xFFF
  | .seVxByte x kk => x.toNat ≤ 15 && kk.toNat ≤ 255
  | .sneVxByte x kk => x.toNat ≤ 15 && kk.toNat ≤ 255
  | .seVxVy x y => x.toNat ≤ 15 && y.toNat ≤ 15
  | .ldVxByte x kk => x.toNat ≤ 15 && kk.toNat ≤ 255
  | .addVxByte x kk => x.toNat ≤ 15 && kk.toNat ≤ 255
  | .ldVxVy x y => x.toNat ≤ 15 && y.toNat ≤ 15
  | .orVxVy x y => x.toNat ≤ 15 && y.toNat ≤ 15
  | .andVxVy x y => x.toNat ≤ 15 && y.toNat ≤ 15
  | .xorVxVy x y => x.toNat ≤ 15 && y.toNat ≤ 15
  | .addVxVy x y => x.toNat ≤ 15 && y.toNat ≤ 15
  | .subVxVy x y => x.toNat ≤ 15 && y.toNat ≤ 15
  | .shrVx x y => x.toNat ≤ 15 && y.toNat ≤ 15
  | .subnVxVy x y => x.toNat ≤ 15 && y.toNat ≤ 15
  | .shlVx x y => x.toNat ≤ 15 && y.toNat ≤ 15
  | .sneVxVy x y => x.toNat ≤ 15 && y.toNat ≤ 15
  | .ldIAddr nnn => nnn.toNat ≤ 0xFFF
  | .jpV0Addr nnn => nnn.toNat ≤ 0xFFF
  | .rndVxByte x kk => x.toNat ≤ 15 && kk.toNat ≤ 255
  | .drwVxVyNibble x y n => x.toNat ≤ 15 && y.toNat ≤ 15 && n.toNat ≤ 15
  | .skpVx x => x.toNat ≤ 15
  | .sknpVx x => x.toNat ≤ 15
  | .ldVxDT x => x.toNat ≤ 15
  | .ldVxK x => x.toNat ≤ 15
  | .ldDTVx x => x.toNat ≤ 15
  | .ldSTVx x => x.toNat ≤ 15
  | .addIVx x => x.toNat ≤ 15
  | .ldFVx x => x.toNat ≤ 15
  | .ldBVx x => x.toNat ≤ 15
  | .ldMemVx x => x.toNat ≤ 15
  | .ldVxMem x => x.toNat ≤ 15

/-- The fields the Opcode Field Decoder extracts from every word (R90). -/
structure Fields where
  /-- bits 15:12 -/
  op : Nibble
  /-- bits 11:8 -/
  x : Nibble
  /-- bits 7:4 -/
  y : Nibble
  /-- bits 3:0 -/
  n : Nibble
  /-- bits 7:0 -/
  kk : Byte
  /-- bits 11:0 -/
  nnn : Addr
deriving DecidableEq, Repr

/-- The overlapping fields agree, as fields of one word do (R90): kk is y then n, and nnn is x then kk. -/
def Fields.wellFormed (f : Fields) : Bool :=
  f.kk == f.y ++ f.n && f.nnn == f.x ++ f.kk

/-- One row of the dispatch table (R97): a word w is the row's where (w AND mask) = value. -/
structure Row where
  /-- the row's name in spec/opcode_table.json -/
  mnemonic : String
  /-- the bits the row fixes -/
  mask : Word
  /-- what they are fixed to (the column "match") -/
  value : Word
deriving DecidableEq, Repr

/-- (w AND mask) = match (R97). -/
def Row.takes (r : Row) (w : Word) : Bool := w &&& r.mask == r.value

/-- A row asks nothing of a bit its mask leaves out. -/
def Row.wellFormed (r : Row) : Bool := r.value &&& r.mask == r.value

/-- Two rows that no word can match both: they differ in a bit that both fix (R97 "the rows are disjoint"). -/
def Row.disjoint (r q : Row) : Bool := r.value &&& (r.mask &&& q.mask) != q.value &&& (r.mask &&& q.mask)

/-- The rows of a table are well formed and disjoint in pairs (R97). -/
def Row.tableWellFormed : List Row → Bool
  | [] => true
  | r :: rest => r.wellFormed && rest.all r.disjoint && Row.tableWellFormed rest

/-- The display sizes a model may take (R9): DISPLAY_WIDTH at least 8, DISPLAY_HEIGHT at least 1. -/
def displayWellFormed (W H : Nat) : Bool := 8 ≤ W && 1 ≤ H

/-- A glyph table has the source's glyph for digit 0 (20_memory R63) and rows 4 pixels wide, with bits 3:0 zero (R62). The model
takes any 80 bytes; no definition or statement asks for this check. -/
def glyphTableWellFormed (table : Config.GlyphTable) : Bool :=
  table.toList.take 5 == [0xF0, 0x90, 0x90, 0x90, 0xF0] && table.toList.all fun b => b &&& 0x0F == 0

/-- A program image that `loadProgram` accepts: at most 4096 - 0x200 bytes (R52). -/
def imageWellFormed (bytes : List Byte) : Bool := bytes.length ≤ Config.memSize - Config.progStart

end Sys2Proof
end

