-- ==== Sys2Proof/Decode.lean ====
section
/-! DEFINITION. The Opcode Field Decoder (30_encoding R90), the dispatch on the high nibble and the secondary key (R95 to R98,
R101), total on any bytes and rejecting by name; after it the opcode table of R97 as data, and the encoder. -/

namespace Sys2Proof

/-- Why bytes are no instruction (R99, R100). -/
inductive DecodeReject where
  /-- fewer than two bytes: no whole instruction word (R91) -/
  | tooShort
  /-- family 0x0: the word is neither 0x00E0 nor 0x00EE (R98) -/
  | family0
  /-- family 0x5: the low nibble is not 0 (R100) -/
  | family5
  /-- family 0x8: the low nibble is 8, 9, A, B, C, D or F (R100) -/
  | family8
  /-- family 0x9: the low nibble is not 0 (R100) -/
  | family9
  /-- family 0xE: the low byte is neither 9E nor A1 (R100) -/
  | familyE
  /-- family 0xF: the low byte is none of 07, 0A, 15, 18, 1E, 29, 33, 55, 65 (R100) -/
  | familyF
deriving DecidableEq, Repr

/-- Field extraction (R90): total, with no side effects. -/
def fieldsOf (w : Word) : Fields where
  op := w.extractLsb' 12 4
  x := w.extractLsb' 8 4
  y := w.extractLsb' 4 4
  n := w.extractLsb' 0 4
  kk := w.extractLsb' 0 8
  nnn := w.extractLsb' 0 12

/-- Family 0x0, on the whole word (R98). -/
def decodeFamily0 (w : Word) : Except DecodeReject Instr :=
  if w = 0x00E0 then .ok .cls
  else if w = 0x00EE then .ok .ret
  else .error .family0

/-- Family 0x8, on the low nibble (R96). -/
def decodeFamily8 (f : Fields) : Except DecodeReject Instr :=
  match f.n.toNat with
  | 0x0 => .ok (.ldVxVy f.x f.y)
  | 0x1 => .ok (.orVxVy f.x f.y)
  | 0x2 => .ok (.andVxVy f.x f.y)
  | 0x3 => .ok (.xorVxVy f.x f.y)
  | 0x4 => .ok (.addVxVy f.x f.y)
  | 0x5 => .ok (.subVxVy f.x f.y)
  | 0x6 => .ok (.shrVx f.x f.y)
  | 0x7 => .ok (.subnVxVy f.x f.y)
  | 0xE => .ok (.shlVx f.x f.y)
  | _ => .error .family8

/-- Family 0xE, on the low byte (R96). -/
def decodeFamilyE (f : Fields) : Except DecodeReject Instr :=
  match f.kk.toNat with
  | 0x9E => .ok (.skpVx f.x)
  | 0xA1 => .ok (.sknpVx f.x)
  | _ => .error .familyE

/-- Family 0xF, on the low byte (R96). -/
def decodeFamilyF (f : Fields) : Except DecodeReject Instr :=
  match f.kk.toNat with
  | 0x07 => .ok (.ldVxDT f.x)
  | 0x0A => .ok (.ldVxK f.x)
  | 0x15 => .ok (.ldDTVx f.x)
  | 0x18 => .ok (.ldSTVx f.x)
  | 0x1E => .ok (.addIVx f.x)
  | 0x29 => .ok (.ldFVx f.x)
  | 0x33 => .ok (.ldBVx f.x)
  | 0x55 => .ok (.ldMemVx f.x)
  | 0x65 => .ok (.ldVxMem f.x)
  | _ => .error .familyF

/-- Decode of a fetched word (R97, R112): the high nibble, then the family's secondary key. The last arm is 0xF: the field
has four bits. -/
def decodeWord (w : Word) : Except DecodeReject Instr :=
  let f := fieldsOf w
  match f.op.toNat with
  | 0x0 => decodeFamily0 w
  | 0x1 => .ok (.jpAddr f.nnn)
  | 0x2 => .ok (.callAddr f.nnn)
  | 0x3 => .ok (.seVxByte f.x f.kk)
  | 0x4 => .ok (.sneVxByte f.x f.kk)
  | 0x5 => if f.n = 0 then .ok (.seVxVy f.x f.y) else .error .family5
  | 0x6 => .ok (.ldVxByte f.x f.kk)
  | 0x7 => .ok (.addVxByte f.x f.kk)
  | 0x8 => decodeFamily8 f
  | 0x9 => if f.n = 0 then .ok (.sneVxVy f.x f.y) else .error .family9
  | 0xA => .ok (.ldIAddr f.nnn)
  | 0xB => .ok (.jpV0Addr f.nnn)
  | 0xC => .ok (.rndVxByte f.x f.kk)
  | 0xD => .ok (.drwVxVyNibble f.x f.y f.n)
  | 0xE => decodeFamilyE f
  | _ => decodeFamilyF f

/-- The word of two fetched bytes, high byte first (20_memory R71). -/
def wordOfBytes (b0 b1 : Byte) : Word := b0 ++ b1

/-- Decode of a byte string: its first two bytes, high byte first, and the bytes left over (R71, R91). -/
def decode : List Byte → Except DecodeReject (Instr × List Byte)
  | b0 :: b1 :: rest => (decodeWord (wordOfBytes b0 b1)).map fun i => (i, rest)
  | _ => .error .tooShort

/-- The dispatch table (R97), with the names of spec/opcode_table.json. -/
def opcodeTable : List Row :=
  [⟨"CLS", 0xFFFF, 0x00E0⟩,
   ⟨"RET", 0xFFFF, 0x00EE⟩,
   ⟨"JP_addr", 0xF000, 0x1000⟩,
   ⟨"CALL_addr", 0xF000, 0x2000⟩,
   ⟨"SE_Vx__byte", 0xF000, 0x3000⟩,
   ⟨"SNE_Vx__byte", 0xF000, 0x4000⟩,
   ⟨"SE_Vx__Vy", 0xF00F, 0x5000⟩,
   ⟨"LD_Vx__byte", 0xF000, 0x6000⟩,
   ⟨"ADD_Vx__byte", 0xF000, 0x7000⟩,
   ⟨"LD_Vx__Vy", 0xF00F, 0x8000⟩,
   ⟨"OR_Vx__Vy", 0xF00F, 0x8001⟩,
   ⟨"AND_Vx__Vy", 0xF00F, 0x8002⟩] ++
  [⟨"XOR_Vx__Vy", 0xF00F, 0x8003⟩,
   ⟨"ADD_Vx__Vy", 0xF00F, 0x8004⟩,
   ⟨"SUB_Vx__Vy", 0xF00F, 0x8005⟩,
   ⟨"SHR_Vx____Vy", 0xF00F, 0x8006⟩,
   ⟨"SUBN_Vx__Vy", 0xF00F, 0x8007⟩,
   ⟨"SHL_Vx____Vy", 0xF00F, 0x800E⟩,
   ⟨"SNE_Vx__Vy", 0xF00F, 0x9000⟩,
   ⟨"LD_I__addr", 0xF000, 0xA000⟩,
   ⟨"JP_V0__addr", 0xF000, 0xB000⟩,
   ⟨"RND_Vx__byte", 0xF000, 0xC000⟩,
   ⟨"DRW_Vx__Vy__nibble", 0xF000, 0xD000⟩,
   ⟨"SKP_Vx", 0xF0FF, 0xE09E⟩] ++
  [⟨"SKNP_Vx", 0xF0FF, 0xE0A1⟩,
   ⟨"LD_Vx__DT", 0xF0FF, 0xF007⟩,
   ⟨"LD_Vx__K", 0xF0FF, 0xF00A⟩,
   ⟨"LD_DT__Vx", 0xF0FF, 0xF015⟩,
   ⟨"LD_ST__Vx", 0xF0FF, 0xF018⟩,
   ⟨"ADD_I__Vx", 0xF0FF, 0xF01E⟩,
   ⟨"LD_F__Vx", 0xF0FF, 0xF029⟩,
   ⟨"LD_B__Vx", 0xF0FF, 0xF033⟩,
   ⟨"LD__I___Vx", 0xF0FF, 0xF055⟩,
   ⟨"LD_Vx___I", 0xF0FF, 0xF065⟩]

/-- The row of the opcode table an instruction belongs to. -/
def mnemonic : Instr → String
  | .cls => "CLS"
  | .ret => "RET"
  | .jpAddr _ => "JP_addr"
  | .callAddr _ => "CALL_addr"
  | .seVxByte _ _ => "SE_Vx__byte"
  | .sneVxByte _ _ => "SNE_Vx__byte"
  | .seVxVy _ _ => "SE_Vx__Vy"
  | .ldVxByte _ _ => "LD_Vx__byte"
  | .addVxByte _ _ => "ADD_Vx__byte"
  | .ldVxVy _ _ => "LD_Vx__Vy"
  | .orVxVy _ _ => "OR_Vx__Vy"
  | .andVxVy _ _ => "AND_Vx__Vy"
  | .xorVxVy _ _ => "XOR_Vx__Vy"
  | .addVxVy _ _ => "ADD_Vx__Vy"
  | .subVxVy _ _ => "SUB_Vx__Vy"
  | .shrVx _ _ => "SHR_Vx____Vy"
  | .subnVxVy _ _ => "SUBN_Vx__Vy"
  | .shlVx _ _ => "SHL_Vx____Vy"
  | .sneVxVy _ _ => "SNE_Vx__Vy"
  | .ldIAddr _ => "LD_I__addr"
  | .jpV0Addr _ => "JP_V0__addr"
  | .rndVxByte _ _ => "RND_Vx__byte"
  | .drwVxVyNibble _ _ _ => "DRW_Vx__Vy__nibble"
  | .skpVx _ => "SKP_Vx"
  | .sknpVx _ => "SKNP_Vx"
  | .ldVxDT _ => "LD_Vx__DT"
  | .ldVxK _ => "LD_Vx__K"
  | .ldDTVx _ => "LD_DT__Vx"
  | .ldSTVx _ => "LD_ST__Vx"
  | .addIVx _ => "ADD_I__Vx"
  | .ldFVx _ => "LD_F__Vx"
  | .ldBVx _ => "LD_B__Vx"
  | .ldMemVx _ => "LD__I___Vx"
  | .ldVxMem _ => "LD_Vx___I"

/-- The word of an instruction, from the formats of R91 and the table of R97. -/
def encode : Instr → Word
  | .cls => 0x00E0#16
  | .ret => 0x00EE#16
  | .jpAddr nnn => 0x1#4 ++ nnn
  | .callAddr nnn => 0x2#4 ++ nnn
  | .seVxByte x kk => 0x3#4 ++ x ++ kk
  | .sneVxByte x kk => 0x4#4 ++ x ++ kk
  | .seVxVy x y => 0x5#4 ++ x ++ y ++ 0x0#4
  | .ldVxByte x kk => 0x6#4 ++ x ++ kk
  | .addVxByte x kk => 0x7#4 ++ x ++ kk
  | .ldVxVy x y => 0x8#4 ++ x ++ y ++ 0x0#4
  | .orVxVy x y => 0x8#4 ++ x ++ y ++ 0x1#4
  | .andVxVy x y => 0x8#4 ++ x ++ y ++ 0x2#4
  | .xorVxVy x y => 0x8#4 ++ x ++ y ++ 0x3#4
  | .addVxVy x y => 0x8#4 ++ x ++ y ++ 0x4#4
  | .subVxVy x y => 0x8#4 ++ x ++ y ++ 0x5#4
  | .shrVx x y => 0x8#4 ++ x ++ y ++ 0x6#4
  | .subnVxVy x y => 0x8#4 ++ x ++ y ++ 0x7#4
  | .shlVx x y => 0x8#4 ++ x ++ y ++ 0xE#4
  | .sneVxVy x y => 0x9#4 ++ x ++ y ++ 0x0#4
  | .ldIAddr nnn => 0xA#4 ++ nnn
  | .jpV0Addr nnn => 0xB#4 ++ nnn
  | .rndVxByte x kk => 0xC#4 ++ x ++ kk
  | .drwVxVyNibble x y n => 0xD#4 ++ x ++ y ++ n
  | .skpVx x => 0xE#4 ++ x ++ 0x9E#8
  | .sknpVx x => 0xE#4 ++ x ++ 0xA1#8
  | .ldVxDT x => 0xF#4 ++ x ++ 0x07#8
  | .ldVxK x => 0xF#4 ++ x ++ 0x0A#8
  | .ldDTVx x => 0xF#4 ++ x ++ 0x15#8
  | .ldSTVx x => 0xF#4 ++ x ++ 0x18#8
  | .addIVx x => 0xF#4 ++ x ++ 0x1E#8
  | .ldFVx x => 0xF#4 ++ x ++ 0x29#8
  | .ldBVx x => 0xF#4 ++ x ++ 0x33#8
  | .ldMemVx x => 0xF#4 ++ x ++ 0x55#8
  | .ldVxMem x => 0xF#4 ++ x ++ 0x65#8

/-- A word as memory holds it, high byte first (20_memory R71, R72). -/
def bytesOfWord (w : Word) : List Byte := [w.extractLsb' 8 8, w.extractLsb' 0 8]

/-- The bytes of an instruction. -/
def encodeBytes (i : Instr) : List Byte := bytesOfWord (encode i)

/-- The word whose bits the opcode table numbers: `nbits` bits of `w`, the bits above them 0. -/
def tableWord (nbits w : Nat) : Word := BitVec.ofNat 16 (w % 2 ^ nbits)

/-- What the decoder reads from a table row's word laid out in memory order. -/
def decodeTableWord (nbits w : Nat) : Option Instr :=
  match decode (bytesOfWord (tableWord nbits w)) with
  | .ok (i, _) => some i
  | .error _ => none

end Sys2Proof
end

