-- ==== Sys2Proof/Machine/State.lean ====
section
/-! DEFINITION. The state of the core: every component of 10_state R43 as plain data, the model's own counter of random
draws, the fault record (60_exceptions R281), and the reset state (70_reset_and_hazards R331). -/

namespace Sys2Proof.Machine

/-- Why a run of the model stops with a fault: NEVER, so there is no constructor. Every fault the spec names (60_exceptions
R281) has an entry the spec describes (R284) and is a next state with the component FAULT set; a step of the halted core
is a next state too (30_encoding R117). Safe and unsafe do not arise. -/
inductive Fault where
deriving DecidableEq, Repr

/-- Why the model gives an instruction no meaning. -/
inductive Refusal where
  /-- An instruction of the opcode table that has no meaning yet; raised by its arm of `exec` alone, and by no arm now. Safe: the
  model stops where the hardware goes on. -/
  | notModelled (mnemonic : String)
deriving DecidableEq, Repr

/-- The fault codes of 60_exceptions R281. -/
inductive FaultCode where
  /-- 1: PC + 1 > 0xFFF at a fetch -/
  | fetchOutOfRange
  /-- 2: the word matches no row of the opcode table -/
  | decode
  /-- 3: `2nnn` with SP = 16 -/
  | stackOverflow
  /-- 4: `00EE` with SP = 0 -/
  | stackUnderflow
  /-- 5: a data access above 0xFFF -/
  | memOutOfRange
  /-- 6: a data write below 0x050 -/
  | glyphWrite
  /-- 7: `Ex9E` or `ExA1` with Vx > 15 -/
  | keyIndex
  /-- 8: `Fx1E` with I + Vx > 0xFFFF -/
  | indexOverflow
  /-- 9: `Dxyn` past the bottom edge, under DRAW_VERTICAL = fault only -/
  | drawOutOfRange
deriving DecidableEq, Repr

/-- The fault record {code, pc, word, info} (60_exceptions R281). -/
structure FaultRecord where
  code : FaultCode
  /-- the address of the faulting instruction -/
  pc : Word
  /-- the fetched word; none when the fetch itself faulted -/
  word : Option Word
  info : Word
deriving DecidableEq, Repr

/-- FB (10_state R38): DISPLAY_HEIGHT rows of DISPLAY_WIDTH pixels, true = on. -/
abbrev Framebuffer (W H : Nat) := Vector (Vector Bool W) H

/-- The memory's listed bytes (20_memory R60), in the canonical form `Memory.wf`. -/
abbrev Memory := List Host.Cell

/-- The whole state of the core (10_state R43), for a display of W by H pixels: the size is a parameter of the machine and no state (00_scope
R9, 10_state R44). -/
structure State.Sized (W H : Nat) where
  /-- V0 to VF (R20) -/
  v : Vector Byte 16
  /-- I (R24) -/
  i : Word
  /-- PC (R26) -/
  pc : Word
  /-- SP, the number of stack entries in use (R30) -/
  sp : Fin 17
  /-- STACK[0..15] (R30) -/
  stack : Vector Word 16
  /-- DT (R34) -/
  dt : Byte
  /-- ST (R35) -/
  st : Byte
  /-- KEY[0..15] (R37) -/
  keys : Vector Bool 16
  /-- FB (R38) -/
  fb : Framebuffer W H
  /-- mem (20_memory R60) -/
  mem : Memory
  /-- FAULT (R40) -/
  fault : Option FaultRecord
  /-- TONE (R41) -/
  tone : Bool
  /-- THE MODEL'S OWN: the number of bytes taken from the random source so far, which is no state of the core (R44, 41_alu
  R196). DESIGN CHOICE, log entry 1. -/
  draws : Nat
deriving DecidableEq, Repr

/-- The state of this hardware, whose display is 64 by 32 (R9). -/
abbrev State := State.Sized Config.displayWidth Config.displayHeight

/-- The state right after reset (70_reset_and_hazards R331) for a display of W by H pixels: memory lists nothing, so every byte reads as its reset contents
(20_memory R66) at the default of GLYPH_TABLE; `State.Sized.resetWith` takes another. -/
def State.Sized.reset (W H : Nat) : State.Sized W H where
  v := Vector.replicate 16 0
  i := 0
  pc := BitVec.ofNat 16 Config.progStart
  sp := 0
  stack := Vector.replicate 16 0
  dt := 0
  st := 0
  keys := Vector.replicate 16 false
  fb := Vector.replicate H (Vector.replicate W false)
  mem := []
  fault := none
  tone := false
  draws := 0

/-- The state right after reset (R331). -/
def State.reset : State := State.Sized.reset Config.displayWidth Config.displayHeight

/-- What a step or a meaning answers. -/
abbrev Result (W H : Nat) := Host.Outcome (State.Sized W H) Fault Refusal

end Sys2Proof.Machine
end

