-- ==== Sys2Proof/Machine/Ops.lean ====
section
/-! DEFINITION. The named operations on memory, registers, stack, timers, keypad, pixels and the random source; the fetch of a
word; taking a fault (60_exceptions R284); the timer tick (R293) and the end of a step. -/

namespace Sys2Proof.Machine

variable {W H : Nat}

/-! Memory (20_memory) -/

/-- What an address that is not listed reads as: the reset contents at the default of GLYPH_TABLE, the glyph table below 0x050 and 0
above (R62, R66). Under another table the reset memory lists the bytes that differ (`State.Sized.resetWith`). -/
def Memory.unlisted (a : Nat) : Byte := Config.glyphTable.byteAt a

/-- The byte at an address (R74). -/
def Memory.read : Memory → Nat → Byte
  | [], a => Memory.unlisted a
  | (b, v) :: rest, a => if a = b then v else Memory.read rest a

/-- The memory with an address no longer listed. -/
def Memory.erase (m : Memory) (a : Nat) : Memory := m.filter fun c => c.1 != a

/-- The memory with one more entry, before the first entry of a higher address. -/
def Memory.insert : Memory → Nat → Byte → Memory
  | [], a, v => [(a, v)]
  | (b, u) :: rest, a, v => if a < b then (a, v) :: (b, u) :: rest else (b, u) :: Memory.insert rest a v

/-- A write of one byte (R74). It lists nothing an unlisted address reads as. -/
def Memory.write (m : Memory) (a : Nat) (v : Byte) : Memory :=
  if v = Memory.unlisted a then Memory.erase m a else Memory.insert (Memory.erase m a) a v

/-- Writes of single bytes at ascending addresses from `a` (R70, R79). -/
def Memory.writeBytes : Memory → Nat → List Byte → Memory
  | m, _, [] => m
  | m, a, v :: rest => Memory.writeBytes (Memory.write m a v) (a + 1) rest

/-- The addresses rise strictly. -/
def Memory.sorted : Memory → Bool
  | [] => true
  | [_] => true
  | (a, _) :: (b, v) :: rest => a < b && Memory.sorted ((b, v) :: rest)

/-- The canonical form: addresses inside the space (R60), strictly rising, and no entry equal to what an unlisted address
reads as. -/
def Memory.wf (m : Memory) : Bool :=
  Memory.sorted m && m.all fun c => c.1 < Config.memSize && c.2 != Memory.unlisted c.1

/-- MemRead(a, 1) (00_scope R13). -/
def State.Sized.readByte (s : State.Sized W H) (a : Nat) : Byte := Memory.read s.mem a

/-- The state with its memory replaced. -/
def State.Sized.setMem (s : State.Sized W H) (m : Memory) : State.Sized W H := { s with mem := m }

/-- The memory at reset at a value of GLYPH_TABLE (R63, R66): the table at GLYPH_BASE, 0 from 0x050 on. -/
def Memory.resetWith (table : Config.GlyphTable) : Memory := Memory.writeBytes [] Config.glyphBase table.toList

/-- The state right after reset (70_reset_and_hazards R331) at a value of GLYPH_TABLE and of the display size; at the defaults it is
`State.reset`. -/
def State.Sized.resetWith (table : Config.GlyphTable) : State.Sized W H := (State.Sized.reset W H).setMem (Memory.resetWith table)

/-! Registers (10_state) -/

/-- V[x] (R20). -/
def State.Sized.getV (s : State.Sized W H) (x : Nibble) : Byte := s.v[x.toNat]'x.isLt

/-- V[x] <- b (R20). -/
def State.Sized.setV (s : State.Sized W H) (x : Nibble) (b : Byte) : State.Sized W H := { s with v := s.v.set x.toNat b x.isLt }

/-- VF, the flag register (R21). -/
abbrev flagReg : Nibble := 0xF

/-- I <- a (R25). -/
def State.Sized.setI (s : State.Sized W H) (a : Word) : State.Sized W H := { s with i := a }

/-- pc <- target (30_encoding R114). -/
def State.Sized.setPc (s : State.Sized W H) (target : Word) : State.Sized W H := { s with pc := target }

/-- pc <- PC + 2, the driver's advance (R114). -/
def State.Sized.advance (s : State.Sized W H) : State.Sized W H := s.setPc (s.pc + 2)

/-- The end of a skip: PC + 4 if the condition holds, else PC + 2 (R114). -/
def State.Sized.skipIf (s : State.Sized W H) (c : Bool) : State.Sized W H := s.setPc (if c then s.pc + 4 else s.pc + 2)

/-- DT <- b (R34). -/
def State.Sized.setDT (s : State.Sized W H) (b : Byte) : State.Sized W H := { s with dt := b }

/-- ST <- b (R35). -/
def State.Sized.setST (s : State.Sized W H) (b : Byte) : State.Sized W H := { s with st := b }

/-- The framebuffer replaced (R38). -/
def State.Sized.setFb (s : State.Sized W H) (fb : Framebuffer W H) : State.Sized W H := { s with fb := fb }

/-! The call stack -/

/-- Push (R31): none when SP = 16. -/
def State.Sized.push (s : State.Sized W H) (e : Word) : Option (State.Sized W H) :=
  if h : s.sp.val < Config.stackDepth then
    some { s with stack := s.stack.set s.sp.val e h, sp := ⟨s.sp.val + 1, Nat.succ_lt_succ h⟩ }
  else none

/-- Pop (R32): none when SP = 0; the entry stays in place. -/
def State.Sized.pop (s : State.Sized W H) : Option (Word × State.Sized W H) :=
  if h : 0 < s.sp.val then
    some (s.stack[s.sp.val - 1]'(by omega), { s with sp := ⟨s.sp.val - 1, by omega⟩ })
  else none

/-! The keypad -/

/-- KEY[k] (R37); there is no key above 15. -/
def State.Sized.keyPressed (s : State.Sized W H) (k : Nat) : Bool := s.keys.toList.getD k false

/-- The least pressed key (42_memory_timers R213). -/
def State.Sized.leastKey (s : State.Sized W H) : Option Nat := s.keys.toList.findIdx? id

/-! The random source -/

/-- draw RANDOM (41_alu R196): the next byte, and the state with one more byte taken. -/
def State.Sized.drawRandom (s : State.Sized W H) : Byte × State.Sized W H := (Config.randomByte s.draws, { s with draws := s.draws + 1 })

/-! The pixels (10_state R38, R39; 43_display R250 to R253) -/

/-- FB[col, row]. -/
def Framebuffer.pixel (fb : Framebuffer W H) (col row : Nat) : Bool :=
  if h : row < H ∧ col < W then (fb[row]'h.1)[col]'h.2 else false

/-- FB[col, row] <- b. -/
def Framebuffer.setPixel (fb : Framebuffer W H) (col row : Nat) (b : Bool) : Framebuffer W H :=
  if h : row < H ∧ col < W then
    fb.set row ((fb[row]'h.1).set col b h.2) h.1
  else fb

/-- The flattened pixel index, row-major (R39), W being DISPLAY_WIDTH. -/
def pixelIndex (W col row : Nat) : Nat := row * W + col

/-- get(p) (R251). -/
def Framebuffer.get (fb : Framebuffer W H) (p : Nat) : Bool :=
  Framebuffer.pixel fb (p % W) (p / W)

/-- set(p, state) (R252). -/
def Framebuffer.put (fb : Framebuffer W H) (p : Nat) (b : Bool) : Framebuffer W H :=
  Framebuffer.setPixel fb (p % W) (p / W) b

/-- xor(p, state) (R253). -/
def Framebuffer.xor (fb : Framebuffer W H) (p : Nat) (b : Bool) : Framebuffer W H :=
  Framebuffer.put fb p (Framebuffer.get fb p != b)

/-- The framebuffer with every pixel off (R254). -/
def Framebuffer.blank : Framebuffer W H :=
  Vector.replicate H (Vector.replicate W false)

/-! Faults, fetch and the end of a step -/

/-- The fault's number; 0 is none (60_exceptions R281). -/
def FaultCode.number : FaultCode → Nat
  | .fetchOutOfRange => 1
  | .decode => 2
  | .stackOverflow => 3
  | .stackUnderflow => 4
  | .memOutOfRange => 5
  | .glyphWrite => 6
  | .keyIndex => 7
  | .indexOverflow => 8
  | .drawOutOfRange => 9

/-- TONE <- 0 and nothing else: all a step of the halted core does (30_encoding R117). -/
def State.Sized.silence (s : State.Sized W H) : State.Sized W H := { s with tone := false }

/-- Taking a fault (60_exceptions R284): FAULT <- {code, PC, word, info}, TONE <- 0, everything else as it was. The core is then
halted (R285). There is no return from a fault but `reset()` (R287). -/
def State.Sized.takeFault (s : State.Sized W H) (code : FaultCode) (word : Option Word) (info : Word) : State.Sized W H :=
  { s with fault := some ⟨code, s.pc, word, info⟩, tone := false }

/-- An instruction's own fault: the record's word is the instruction's (R281). -/
def raise (i : Instr) (code : FaultCode) (info : Word) (s : State.Sized W H) : Result W H :=
  .next (s.takeFault code (some (encode i)) info)

/-- The fetch (20_memory R71): two bytes, high byte first; none if PC + 1 > 0xFFF. -/
def State.Sized.fetch (s : State.Sized W H) : Option Word :=
  if s.pc.toNat + 1 < Config.memSize then
    some (wordOfBytes (s.readByte s.pc.toNat) (s.readByte (s.pc.toNat + 1)))
  else none

/-- Where the next step fetches: PC, or the program start if a fetch at PC is out of range. -/
def State.Sized.fetchPlace (s : State.Sized W H) : Nat := if s.pc.toNat + 1 < Config.memSize then s.pc.toNat else Config.progStart

/-- The state with a word in memory where the next step fetches it: a halted core is made to run, and a PC whose fetch is out
of range is moved to the program start; otherwise nothing but the two bytes changes. -/
def State.Sized.placeWord (s : State.Sized W H) (w : Word) : State.Sized W H :=
  { s with
    mem := Memory.writeBytes s.mem s.fetchPlace (bytesOfWord w)
    pc := BitVec.ofNat 16 s.fetchPlace
    fault := none }

/-- A counter one lower, if it is above 0 (60_exceptions R293). -/
def tickDown (b : Byte) : Byte := if b = 0 then 0 else b - 1

/-- The timer tick (R293, R295). -/
def State.Sized.tick (s : State.Sized W H) : State.Sized W H :=
  { s with tone := s.st != 0, dt := tickDown s.dt, st := tickDown s.st }

/-- The end of a step (30_encoding R110): the tick, unless the instruction faulted (R116). -/
def State.Sized.finish (s : State.Sized W H) : State.Sized W H :=
  match s.fault with
  | some _ => s
  | none => s.tick

/-- The step around an instruction's execution. -/
def finishStep : Result W H → Result W H
  | .next s => .next s.finish
  | .fault r => .fault r
  | .refused r => .refused r

/-- Decode and execution of a fetched word (30_encoding R110, phases 2 to 4), `run` being the execution. -/
def runWord (run : Instr → State.Sized W H → Result W H) (w : Word) (s : State.Sized W H) : Result W H :=
  match decodeWord w with
  | .error _ => .next (s.takeFault .decode (some w) w)
  | .ok i => finishStep (run i s)

/-- The Cycle Driver (30_encoding R110), `run` being the execution of one instruction: halted, fetch, decode, execute, tick. -/
def cycle (run : Instr → State.Sized W H → Result W H) (s : State.Sized W H) : Result W H :=
  match s.fault with
  | some _ => .next s.silence
  | none =>
    match s.fetch with
    | none => .next (s.takeFault .fetchOutOfRange none s.pc)
    | some w => runWord run w s

end Sys2Proof.Machine
end

