-- ==== Sys2Proof/Machine/Operands.lean ====
section
/-! DEFINITION. The operand forms: zero-extended immediates (30_encoding R93), the register-indirect bytes I + k with their
checks (42_memory_timers R210, 20_memory R64, R68), the register list V0 to Vx, and decimal digits. -/

namespace Sys2Proof.Machine

variable {W H : Nat}

/-- zext_16(nnn) (30_encoding R93). -/
def addrWord (nnn : Addr) : Word := nnn.setWidth 16

/-- A byte widened to 16 bits (00_scope R12). -/
def byteWord (b : Byte) : Word := b.setWidth 16

/-- The effective address I + k, in the naturals (20_memory R69). -/
def State.Sized.dataAddr (s : State.Sized W H) (k : Nat) : Nat := s.i.toNat + k

/-- The lowest out-of-range address of an access from I upwards: max(I, 0x1000) (60_exceptions R281). -/
def State.Sized.lowestOutOfRange (s : State.Sized W H) : Word := if s.i.toNat < 0x1000 then 0x1000 else s.i

/-- The check of `count` data bytes at I, I + 1, ... (20_memory R68). -/
def State.Sized.rangeFault (s : State.Sized W H) (count : Nat) : Option (FaultCode × Word) :=
  if 0 < count ∧ s.dataAddr (count - 1) > 0xFFF then some (.memOutOfRange, s.lowestOutOfRange) else none

/-- The checks of `count` data writes at I, I + 1, ...: the range, then the glyph region (R64, R68; 60_exceptions R283). -/
def State.Sized.storeFault (s : State.Sized W H) (count : Nat) : Option (FaultCode × Word) :=
  match s.rangeFault count with
  | some f => some f
  | none => if 0 < count ∧ s.i.toNat < Config.glyphSize then some (.glyphWrite, s.i) else none

/-- The `count` bytes at I, I + 1, ... -/
def State.Sized.loadBytes (s : State.Sized W H) (count : Nat) : List Byte :=
  (List.range count).map fun k => s.readByte (s.dataAddr k)

/-- Writes of bytes at I, I + 1, ... -/
def State.Sized.storeBytes (s : State.Sized W H) (bytes : List Byte) : State.Sized W H :=
  s.setMem (Memory.writeBytes s.mem (s.dataAddr 0) bytes)

/-- The number of registers in V0 to Vx. -/
def regCount (x : Nibble) : Nat := x.toNat + 1

/-- V0 to Vx, in order (42_memory_timers R219). -/
def State.Sized.firstRegs (s : State.Sized W H) (x : Nibble) : List Byte := s.v.toList.take (regCount x)

/-- V0, V1, ... <- the bytes; the registers past them keep their values (R220). -/
def State.Sized.setFirstRegs (s : State.Sized W H) (bytes : List Byte) : State.Sized W H :=
  { s with v := Vector.ofFn fun k => bytes.getD k.val s.v[k] }

/-- Hundreds, tens and ones of a byte (R218). -/
def bcdDigits (b : Byte) : List Byte :=
  [BitVec.ofNat 8 (b.toNat / 100), BitVec.ofNat 8 (b.toNat / 10 % 10), BitVec.ofNat 8 (b.toNat % 10)]

/-- GLYPH_BASE + 5 * d, unmasked (R217). -/
def glyphAddr (d : Byte) : Word := BitVec.ofNat 16 (Config.glyphBase + 5 * d.toNat)

end Sys2Proof.Machine
end

