-- ==== Sys2Proof/Machine/Alu.lean ====
section
/-! DEFINITION. The register, arithmetic and logic instructions (41_alu R171 to R182). Operands are read before any write, and
VF as a flag is written last (00_scope R14). -/

namespace Sys2Proof.Machine

variable {W H : Nat}

/-- V[x] <- result; pc <- PC + 2. -/
def State.Sized.writeBack (s : State.Sized W H) (x : Nibble) (result : Byte) : State.Sized W H := (s.setV x result).advance

/-- V[x] <- result; V[0xF] <- flag; pc <- PC + 2. -/
def State.Sized.writeBackFlag (s : State.Sized W H) (x : Nibble) (result flag : Byte) : State.Sized W H :=
  ((s.setV x result).setV flagReg flag).advance

/-- `6xkk` LD Vx, byte (R171). -/
def execLdVxByte (x : Nibble) (kk : Byte) (s : State.Sized W H) : Result W H := .next (s.writeBack x kk)

/-- `7xkk` ADD Vx, byte (R172): no flag. -/
def execAddVxByte (x : Nibble) (kk : Byte) (s : State.Sized W H) : Result W H := .next (s.writeBack x (s.getV x + kk))

/-- `8xy0` LD Vx, Vy (R173). -/
def execLdVxVy (x y : Nibble) (s : State.Sized W H) : Result W H := .next (s.writeBack x (s.getV y))

/-- `8xy1` OR Vx, Vy (R174). -/
def execOrVxVy (x y : Nibble) (s : State.Sized W H) : Result W H := .next (s.writeBack x (s.getV x ||| s.getV y))

/-- `8xy2` AND Vx, Vy (R175). -/
def execAndVxVy (x y : Nibble) (s : State.Sized W H) : Result W H := .next (s.writeBack x (s.getV x &&& s.getV y))

/-- `8xy3` XOR Vx, Vy (R176). -/
def execXorVxVy (x y : Nibble) (s : State.Sized W H) : Result W H := .next (s.writeBack x (s.getV x ^^^ s.getV y))

/-- `8xy4` ADD Vx, Vy (R177). -/
def execAddVxVy (x y : Nibble) (s : State.Sized W H) : Result W H :=
  .next (s.writeBackFlag x (s.getV x + s.getV y) (carryFlag (s.getV x) (s.getV y)))

/-- `8xy5` SUB Vx, Vy (R178). -/
def execSubVxVy (x y : Nibble) (s : State.Sized W H) : Result W H :=
  .next (s.writeBackFlag x (subSaturating (s.getV x) (s.getV y)) (aboveFlag (s.getV x) (s.getV y)))

/-- `8xy6` SHR Vx (R179): y is ignored. -/
def execShrVx (x _y : Nibble) (s : State.Sized W H) : Result W H :=
  .next (s.writeBackFlag x (s.getV x >>> 1) (shrFlag (s.getV x)))

/-- `8xy7` SUBN Vx, Vy (R180). -/
def execSubnVxVy (x y : Nibble) (s : State.Sized W H) : Result W H :=
  .next (s.writeBackFlag x (subSaturating (s.getV y) (s.getV x)) (aboveFlag (s.getV y) (s.getV x)))

/-- `8xyE` SHL Vx (R181) at a value of SHL_VF_RAW: y is ignored. -/
def execShlVxWith (raw : Bool) (x _y : Nibble) (s : State.Sized W H) : Result W H :=
  .next (s.writeBackFlag x (s.getV x <<< 1) (shlFlag raw (s.getV x)))

/-- `8xyE` SHL Vx (R181). -/
def execShlVx (x y : Nibble) (s : State.Sized W H) : Result W H := execShlVxWith Config.shlVfRaw x y s

/-- `Cxkk` RND Vx, byte (R182): exactly one byte is taken, whatever kk is (R196). -/
def execRndVxByte (x : Nibble) (kk : Byte) (s : State.Sized W H) : Result W H :=
  .next (s.drawRandom.2.writeBack x (s.drawRandom.1 &&& kk))

end Sys2Proof.Machine
end

