-- ==== Sys2Proof/Machine/Control.lean ====
section
/-! DEFINITION. The control-flow instructions (40_control_flow R131 to R140). -/

namespace Sys2Proof.Machine

variable {W H : Nat}

/-- `00EE` RET (R131). -/
def execRet (s : State.Sized W H) : Result W H :=
  match s.pop with
  | none => raise .ret .stackUnderflow 0 s
  | some (e, t) => .next (t.setPc (e + 2))

/-- `1nnn` JP addr (R132). -/
def execJpAddr (nnn : Addr) (s : State.Sized W H) : Result W H := .next (s.setPc (addrWord nnn))

/-- `2nnn` CALL addr (R133): the entry pushed is the call's own address. -/
def execCallAddr (nnn : Addr) (s : State.Sized W H) : Result W H :=
  match s.push s.pc with
  | none => raise (.callAddr nnn) .stackOverflow (addrWord nnn) s
  | some t => .next (t.setPc (addrWord nnn))

/-- `3xkk` SE Vx, byte (R134). -/
def execSeVxByte (x : Nibble) (kk : Byte) (s : State.Sized W H) : Result W H := .next (s.skipIf (s.getV x == kk))

/-- `4xkk` SNE Vx, byte (R135). -/
def execSneVxByte (x : Nibble) (kk : Byte) (s : State.Sized W H) : Result W H := .next (s.skipIf (s.getV x != kk))

/-- `5xy0` SE Vx, Vy (R136). -/
def execSeVxVy (x y : Nibble) (s : State.Sized W H) : Result W H := .next (s.skipIf (s.getV x == s.getV y))

/-- `9xy0` SNE Vx, Vy (R137). -/
def execSneVxVy (x y : Nibble) (s : State.Sized W H) : Result W H := .next (s.skipIf (s.getV x != s.getV y))

/-- `Bnnn` JP V0, addr (R138): not reduced modulo 4096. -/
def execJpV0Addr (nnn : Addr) (s : State.Sized W H) : Result W H := .next (s.setPc (addrWord nnn + byteWord (s.getV 0)))

/-- `Ex9E` SKP Vx (R139). -/
def execSkpVx (x : Nibble) (s : State.Sized W H) : Result W H :=
  if (s.getV x).toNat > 15 then raise (.skpVx x) .keyIndex (byteWord (s.getV x)) s
  else .next (s.skipIf (s.keyPressed (s.getV x).toNat))

/-- `ExA1` SKNP Vx (R140). -/
def execSknpVx (x : Nibble) (s : State.Sized W H) : Result W H :=
  if (s.getV x).toNat > 15 then raise (.sknpVx x) .keyIndex (byteWord (s.getV x)) s
  else .next (s.skipIf (!s.keyPressed (s.getV x).toNat))

end Sys2Proof.Machine
end

