-- ==== Sys2Proof/Machine/Display.lean ====
section
/-! DEFINITION. The display instructions (43_display R254 to R260). The sprite is drawn by the loop of R255, row by row and bit
by bit, in that order. -/

namespace Sys2Proof.Machine

variable {W H : Nat}

/-- What the drawing loop carries: the pixels, and whether a 1-bit has landed on a lit pixel so far ("hit"). -/
structure Canvas (W H : Nat) where
  fb : Framebuffer W H
  hit : Bool
deriving DecidableEq, Repr

/-- The sprite byte's bit at column offset c, most significant first (R255). -/
def spriteBit (b : Byte) (c : Nat) : Bool := b.getLsbD (7 - c)

/-- The column of the sprite bit c (R256), W being DISPLAY_WIDTH. -/
def spriteCol (W xs c : Nat) : Nat := (xs + c) % W

/-- The row a sprite row is drawn on, or none where it is dropped (R257), H being DISPLAY_HEIGHT. Under `fault` a sprite
that gets here fits, so no row of it is past the edge. -/
def spriteRow (H : Nat) (policy : Config.VerticalPolicy) (row : Nat) : Option Nat :=
  if row < H then some row
  else
    match policy with
    | .clip => none
    | .wrap => some (row % H)
    | .fault => none

/-- One bit of a sprite row. -/
def drawBit (xs row : Nat) (b : Byte) (k : Canvas W H) (c : Nat) : Canvas W H :=
  if spriteBit b c then
    { fb := Framebuffer.xor k.fb (pixelIndex W (spriteCol W xs c) row) true
      hit := k.hit || Framebuffer.get k.fb (pixelIndex W (spriteCol W xs c) row) }
  else k

/-- One sprite row: its 8 bits from the left. -/
def drawRow (xs row : Nat) (b : Byte) (k : Canvas W H) : Canvas W H := (List.range 8).foldl (drawBit xs row b) k

/-- The sprite rows from the top, the first one at `row`. -/
def drawRows (policy : Config.VerticalPolicy) (xs : Nat) : Nat → List Byte → Canvas W H → Canvas W H
  | _, [], k => k
  | row, b :: rest, k =>
    match spriteRow H policy row with
    | none => drawRows policy xs (row + 1) rest k
    | some r => drawRows policy xs (row + 1) rest (drawRow xs r b k)

/-- The checks of `Dxyn`, in their order: the range of all n bytes, then the bottom edge under DRAW_VERTICAL = fault
(R255, R257; 60_exceptions R283). -/
def State.Sized.drawFault (policy : Config.VerticalPolicy) (ys : Byte) (n : Nat) (s : State.Sized W H) : Option (FaultCode × Word) :=
  match s.rangeFault n with
  | some f => some f
  | none =>
    if policy = .fault ∧ 0 < n ∧ ys.toNat + (n - 1) ≥ H then
      some (.drawOutOfRange, byteWord ys)
    else none

/-- `00E0` CLS (R254). -/
def execCls (s : State.Sized W H) : Result W H := .next (s.setFb Framebuffer.blank).advance

/-- The canvas after a whole sprite, from the state's pixels and no hit. -/
def State.Sized.sprite (policy : Config.VerticalPolicy) (x y n : Nibble) (s : State.Sized W H) : Canvas W H :=
  drawRows policy (s.getV x).toNat (s.getV y).toNat (s.loadBytes n.toNat) { fb := s.fb, hit := false }

/-- `Dxyn` DRW Vx, Vy, nibble (R255) at a value of DRAW_VERTICAL: the coordinates are read before VF is written. -/
def execDrwWith (policy : Config.VerticalPolicy) (x y n : Nibble) (s : State.Sized W H) : Result W H :=
  match s.drawFault policy (s.getV y) n.toNat with
  | some (code, info) => raise (.drwVxVyNibble x y n) code info s
  | none => .next ((s.setFb (s.sprite policy x y n).fb).setV flagReg (bit (s.sprite policy x y n).hit)).advance

/-- `Dxyn` DRW Vx, Vy, nibble (R255). -/
def execDrwVxVyNibble (x y n : Nibble) (s : State.Sized W H) : Result W H := execDrwWith Config.drawVertical x y n s

end Sys2Proof.Machine
end

