-- ==== Sys2Proof/Machine/MemTimers.lean ====
section
/-! DEFINITION. The address-register, timer, key-wait and memory instructions (42_memory_timers R211 to R220). -/

namespace Sys2Proof.Machine

variable {W H : Nat}

/-- `Annn` LD I, addr (R211) at a value of ANNN_EXTRA_ADVANCE. -/
def execLdIAddrWith (extra : Bool) (nnn : Addr) (s : State.Sized W H) : Result W H :=
  .next ((s.setI (addrWord nnn)).skipIf extra)

/-- `Annn` LD I, addr (R211). -/
def execLdIAddr (nnn : Addr) (s : State.Sized W H) : Result W H := execLdIAddrWith Config.annnExtraAdvance nnn s

/-- `Fx07` LD Vx, DT (R212): DT before this step's tick. -/
def execLdVxDT (x : Nibble) (s : State.Sized W H) : Result W H := .next (s.setV x s.dt).advance

/-- `Fx0A` LD Vx, K (R213): the least pressed key; with none pressed PC stays (the step's result is Blocked). -/
def execLdVxK (x : Nibble) (s : State.Sized W H) : Result W H :=
  match s.leastKey with
  | some k => .next (s.setV x (BitVec.ofNat 8 k)).advance
  | none => .next s

/-- `Fx15` LD DT, Vx (R214). -/
def execLdDTVx (x : Nibble) (s : State.Sized W H) : Result W H := .next (s.setDT (s.getV x)).advance

/-- `Fx18` LD ST, Vx (R215). -/
def execLdSTVx (x : Nibble) (s : State.Sized W H) : Result W H := .next (s.setST (s.getV x)).advance

/-- `Fx1E` ADD I, Vx (R216): no flag. -/
def execAddIVx (x : Nibble) (s : State.Sized W H) : Result W H :=
  if s.i.toNat + (s.getV x).toNat > 0xFFFF then raise (.addIVx x) .indexOverflow (byteWord (s.getV x)) s
  else .next (s.setI (s.i + byteWord (s.getV x))).advance

/-- `Fx29` LD F, Vx (R217). -/
def execLdFVx (x : Nibble) (s : State.Sized W H) : Result W H := .next (s.setI (glyphAddr (s.getV x))).advance

/-- `Fx33` LD B, Vx (R218). -/
def execLdBVx (x : Nibble) (s : State.Sized W H) : Result W H :=
  match s.storeFault 3 with
  | some (code, info) => raise (.ldBVx x) code info s
  | none => .next (s.storeBytes (bcdDigits (s.getV x))).advance

/-- `Fx55` LD [I], Vx (R219). -/
def execLdMemVx (x : Nibble) (s : State.Sized W H) : Result W H :=
  match s.storeFault (regCount x) with
  | some (code, info) => raise (.ldMemVx x) code info s
  | none => .next (s.storeBytes (s.firstRegs x)).advance

/-- `Fx65` LD Vx, [I] (R220). -/
def execLdVxMem (x : Nibble) (s : State.Sized W H) : Result W H :=
  match s.rangeFault (regCount x) with
  | some (code, info) => raise (.ldVxMem x) code info s
  | none => .next (s.setFirstRegs (s.loadBytes (regCount x))).advance

end Sys2Proof.Machine
end

