-- ==== Sys2Proof/Machine/Step.lean ====
section
/-! DEFINITION. One step of the core (30_encoding R110), and a state about to run a given word. -/

namespace Sys2Proof.Machine

/-- `step()` (30_encoding R110). -/
def step (s : State) : Host.Outcome State Fault Refusal := cycle exec s

/-- The state with a word of the opcode table where the next step fetches. A word comes into memory from outside, by
`loadProgram` (log entry 6); a halted core or a PC that cannot be fetched from is put where a fetch can happen. -/
def State.withFetchWord (s : State) (nbits w : Nat) : State := s.placeWord (tableWord nbits w)

end Sys2Proof.Machine
end

