-- ==== Sys2Proof/Machine/Params.lean ====
section
/-! DEFINITION. The core at any value of its parameters (00_scope R9, R10; 10_state R44): the display size W by H, and the behaviour
parameters `p`. At the defaults it is the core of `exec` and `step` (`execWith_default`, `stepWith_default`). -/

namespace Sys2Proof.Machine

variable {W H : Nat}

/-- The dispatch (30_encoding R113) at any value of the parameters: three instructions read one (R10). -/
def execWith (p : Config.Params) (i : Instr) (s : State.Sized W H) : Result W H :=
  match i with
  | .cls => execCls s
  | .ret => execRet s
  | .jpAddr nnn => execJpAddr nnn s
  | .callAddr nnn => execCallAddr nnn s
  | .seVxByte x kk => execSeVxByte x kk s
  | .sneVxByte x kk => execSneVxByte x kk s
  | .seVxVy x y => execSeVxVy x y s
  | .ldVxByte x kk => execLdVxByte x kk s
  | .addVxByte x kk => execAddVxByte x kk s
  | .ldVxVy x y => execLdVxVy x y s
  | .orVxVy x y => execOrVxVy x y s
  | .andVxVy x y => execAndVxVy x y s
  | .xorVxVy x y => execXorVxVy x y s
  | .addVxVy x y => execAddVxVy x y s
  | .subVxVy x y => execSubVxVy x y s
  | .shrVx x y => execShrVx x y s
  | .subnVxVy x y => execSubnVxVy x y s
  | .shlVx x y => execShlVxWith p.shlVfRaw x y s
  | .sneVxVy x y => execSneVxVy x y s
  | .ldIAddr nnn => execLdIAddrWith p.annnExtraAdvance nnn s
  | .jpV0Addr nnn => execJpV0Addr nnn s
  | .rndVxByte x kk => execRndVxByte x kk s
  | .drwVxVyNibble x y n => execDrwWith p.drawVertical x y n s
  | .skpVx x => execSkpVx x s
  | .sknpVx x => execSknpVx x s
  | .ldVxDT x => execLdVxDT x s
  | .ldVxK x => execLdVxK x s
  | .ldDTVx x => execLdDTVx x s
  | .ldSTVx x => execLdSTVx x s
  | .addIVx x => execAddIVx x s
  | .ldFVx x => execLdFVx x s
  | .ldBVx x => execLdBVx x s
  | .ldMemVx x => execLdMemVx x s
  | .ldVxMem x => execLdVxMem x s

/-- `step()` (30_encoding R110) at any value of the parameters. -/
def stepWith (p : Config.Params) (s : State.Sized W H) : Result W H := cycle (execWith p) s

end Sys2Proof.Machine
end

