-- ==== Sys2Proof/Machine/HostOps.lean ====
section
/-! DEFINITION. The operations by which the host reaches the core (10_state R50 to R59), each one atomic transition
(00_scope R6). Their errors are the caller's: they set no FAULT and halt nothing (R59, 60_exceptions R289). Each is
written once, for any display size and any values of the parameters (10_state R44); the plain names are this hardware's. -/

namespace Sys2Proof.Machine

variable {W H : Nat}

/-- The result of a step (10_state R54, 30_encoding R116). -/
inductive StepResult where
  /-- the instruction completed -/
  | ok
  /-- `Fx0A` found no key pressed -/
  | blocked
  /-- the step faulted, or the core was halted -/
  | faulted (r : FaultRecord)
deriving DecidableEq, Repr

/-- The errors of host operations (R59). -/
inductive HostError where
  /-- `loadProgram` of more than 3584 bytes (R52) -/
  | imageTooLarge
  /-- `setKey` with an index outside 0 to 15 (R53) -/
  | keyIndexError
  /-- `getPixel` with an index outside 0 to W * H - 1 (R55) -/
  | pixelIndexError
deriving DecidableEq, Repr

/-- The operations of R50; `readState` stands for the state reads of R56. -/
inductive HostCall where
  | reset
  | loadProgram (bytes : List Byte)
  | setKey (index : Int) (pressed : Bool)
  | step
  | getPixel (index : Int)
  | delayTimerExpired
  | soundTimerExpired
  | readState
deriving DecidableEq, Repr

/-- What an operation answers. -/
inductive HostReply (W H : Nat) where
  /-- done, nothing to say -/
  | ok
  /-- the caller's error; nothing has changed -/
  | error (e : HostError)
  /-- a step's result, with the TONE bit of that step -/
  | stepped (r : StepResult) (tone : Bool)
  /-- a pixel or a predicate -/
  | flag (b : Bool)
  /-- every component of the state (R56); `draws` is none of them -/
  | view (s : State.Sized W H)
deriving DecidableEq, Repr

/-- `reset()` (R51, 70_reset_and_hazards R330) at a value of GLYPH_TABLE: every component at its reset value; the random source
stays where it is (R334). -/
def hostResetWith (table : Config.GlyphTable) (s : State.Sized W H) : State.Sized W H := { State.Sized.resetWith table with draws := s.draws }

/-- `reset()` (R51). -/
def hostReset (s : State) : State := hostResetWith Config.glyphTable s

/-- `loadProgram(bytes)` (R52). -/
def hostLoadProgram (bytes : List Byte) (s : State.Sized W H) : Except HostError (State.Sized W H) :=
  if imageWellFormed bytes then .ok (s.setMem (Memory.writeBytes s.mem Config.progStart bytes))
  else .error .imageTooLarge

/-- `setKey(index, pressed)` (R53). -/
def hostSetKey (index : Int) (pressed : Bool) (s : State.Sized W H) : Except HostError (State.Sized W H) :=
  if 0 ≤ index ∧ index < 16 then .ok { s with keys := s.keys.setIfInBounds index.toNat pressed }
  else .error .keyIndexError

/-- `getPixel(index)` (R55). -/
def hostGetPixel (index : Int) (s : State.Sized W H) : Except HostError Bool :=
  if 0 ≤ index ∧ index < (W * H : Nat) then
    .ok (Framebuffer.get s.fb index.toNat)
  else .error .pixelIndexError

/-- The host's view of a pixel: three equal intensity bytes (R58, informative). -/
def pixelRecord (b : Bool) : List Byte := if b then [255, 255, 255] else [0, 0, 0]

/-- `delayTimerExpired()` (R56). -/
def delayTimerExpired (s : State.Sized W H) : Bool := s.dt == 0

/-- `soundTimerExpired()` (R56). -/
def soundTimerExpired (s : State.Sized W H) : Bool := s.st == 0

/-- The instruction the next step executes, if the core is not halted and the fetch and the decode succeed. -/
def State.Sized.nextInstr (s : State.Sized W H) : Option Instr :=
  match s.fault, s.fetch with
  | none, some w => (decodeWord w).toOption
  | _, _ => none

/-- The next step is an `Fx0A` with no key pressed (42_memory_timers R213). -/
def State.Sized.waiting (s : State.Sized W H) : Bool :=
  match s.nextInstr with
  | some (.ldVxK _) => s.leastKey.isNone
  | _ => false

/-- The state after a step, `next` being the step. -/
def stateAfterBy (next : State.Sized W H → Result W H) (s : State.Sized W H) : State.Sized W H :=
  match next s with
  | .next t => t
  | .fault _ => s
  | .refused _ => s

/-- The result of the step from s (R54, R116), `next` being the step. -/
def stepResultBy (next : State.Sized W H → Result W H) (s : State.Sized W H) : StepResult :=
  match (stateAfterBy next s).fault with
  | some r => .faulted r
  | none => if s.waiting then .blocked else .ok

/-- The state after a step. -/
def stateAfter (s : State) : State := stateAfterBy step s

/-- The result of the step from s (R54, R116). -/
def stepResult (s : State) : StepResult := stepResultBy step s

/-- The reply of an operation that may refuse its arguments. -/
def replyOf (s : State.Sized W H) : Except HostError (State.Sized W H) → HostReply W H × State.Sized W H
  | .ok t => (.ok, t)
  | .error e => (.error e, s)

/-- One host operation (R50), `next` being the step and `table` the value of GLYPH_TABLE, which `reset()` alone reads. -/
def hostCallBy (next : State.Sized W H → Result W H) (table : Config.GlyphTable) (c : HostCall) (s : State.Sized W H) :
    HostReply W H × State.Sized W H :=
  match c with
  | .reset => (.ok, hostResetWith table s)
  | .loadProgram bytes => replyOf s (hostLoadProgram bytes s)
  | .setKey index pressed => replyOf s (hostSetKey index pressed s)
  | .step => (.stepped (stepResultBy next s) (stateAfterBy next s).tone, stateAfterBy next s)
  | .getPixel index =>
    match hostGetPixel index s with
    | .ok b => (.flag b, s)
    | .error e => (.error e, s)
  | .delayTimerExpired => (.flag (delayTimerExpired s), s)
  | .soundTimerExpired => (.flag (soundTimerExpired s), s)
  | .readState => (.view s, s)

/-- One host operation (R50). -/
def hostCall (c : HostCall) (s : State) : HostReply Config.displayWidth Config.displayHeight × State := hostCallBy step Config.glyphTable c s

/-- One host operation (R50) at any value of the parameters (00_scope R9, R10). -/
def hostCallWith (p : Config.Params) (c : HostCall) (s : State.Sized W H) : HostReply W H × State.Sized W H :=
  hostCallBy (stepWith p) p.glyphTable c s

/-- Operations one after another (R57), `call` being one operation. -/
def hostRunBy (call : HostCall → State.Sized W H → HostReply W H × State.Sized W H) : List HostCall → State.Sized W H → State.Sized W H
  | [], s => s
  | c :: rest, s => hostRunBy call rest (call c s).2

/-- A host script (R57). -/
def hostRun (script : List HostCall) (s : State) : State := hostRunBy hostCall script s

/-- A host script (R57) at any value of the parameters. -/
def hostRunWith (p : Config.Params) (script : List HostCall) (s : State.Sized W H) : State.Sized W H :=
  hostRunBy (hostCallWith p) script s

end Sys2Proof.Machine
end

