-- ==== Sys2Proof/Safety.lean ====
section
/-! DEFINITION. The terms claims are stated in: the two ends of a run (70_reset_and_hazards R343), the parts of two states that
agree, and the invariants. -/

namespace Sys2Proof.Safety

open Sys2Proof.Machine

variable {W H : Nat}

/-- The bad end of a run: FAULT is not none (R343). -/
def BadEnd (s : State.Sized W H) : Prop := s.fault ≠ none

/-- The good end of a run: FAULT is none and the word at PC is a jump to PC itself (R343). -/
def Idle (s : State.Sized W H) : Prop := ∃ nnn : Addr, s.nextInstr = some (.jpAddr nnn) ∧ addrWord nnn = s.pc

/-- The two states differ in DT, ST and TONE at most. -/
def ClockOnly (s t : State.Sized W H) : Prop :=
  t.v = s.v ∧ t.i = s.i ∧ t.pc = s.pc ∧ t.sp = s.sp ∧ t.stack = s.stack ∧ t.keys = s.keys ∧ t.fb = s.fb ∧
  t.mem = s.mem ∧ t.fault = s.fault ∧ t.draws = s.draws

/-- The state after `n` steps. -/
def after : Nat → State → State
  | 0, s => s
  | n + 1, s => after n (stateAfter s)

/-- What an instruction may change besides PC. -/
structure MayChange where
  /-- these general registers -/
  regs : List Nibble := []
  /-- I -/
  i : Bool := false
  /-- SP and the stack entries -/
  stack : Bool := false
  /-- DT -/
  dt : Bool := false
  /-- ST -/
  st : Bool := false
  /-- the pixels -/
  fb : Bool := false
  /-- the position in the random source -/
  draws : Bool := false
  /-- the stored bytes: the address of the first, and how many there are -/
  stored : Nat × Nat := (0, 0)

/-- The frame of an instruction: everything but PC and what `c` names is as it was. No instruction writes the keys, the tone or,
when it completes, the fault record. -/
def Frame (c : MayChange) (s t : State.Sized W H) : Prop :=
  (∀ r : Nibble, r ∉ c.regs → t.getV r = s.getV r) ∧
  (c.i = false → t.i = s.i) ∧
  (c.stack = false → t.sp = s.sp ∧ t.stack = s.stack) ∧
  (c.dt = false → t.dt = s.dt) ∧
  (c.st = false → t.st = s.st) ∧
  (c.fb = false → t.fb = s.fb) ∧
  (c.draws = false → t.draws = s.draws) ∧
  (∀ a : Nat, a < c.stored.1 ∨ c.stored.1 + c.stored.2 ≤ a → t.readByte a = s.readByte a) ∧
  t.keys = s.keys ∧ t.tone = s.tone ∧ t.fault = s.fault

/-- A 1-bit of the sprite of `Dxyn` lands on the pixel (col, row): sprite row r, bit 7 - c, horizontal wrap, and the vertical policy
(43_display R255 to R257). -/
def Covers (policy : Config.VerticalPolicy) (s : State.Sized W H) (x y n : Nibble) (col row : Nat) : Prop :=
  ∃ r c : Nat, r < n.toNat ∧ c < 8 ∧ (s.readByte (s.dataAddr r)).getLsbD (7 - c) = true ∧
    ((s.getV x).toNat + c) % W = col ∧
    (if policy = .wrap then ((s.getV y).toNat + r) % H = row else (s.getV y).toNat + r = row)

/-- The pixels on which the 1-bits of the sprite of `Dxyn` land, as (column, row), in the loop's order: rows from the top, bits from the
left, horizontal wrap, and the vertical policy (43_display R255 to R257). -/
def landings (policy : Config.VerticalPolicy) (s : State.Sized W H) (x y n : Nibble) : List (Nat × Nat) :=
  (List.range n.toNat).flatMap fun r =>
    if (s.getV y).toNat + r < H ∨ policy = .wrap then
      ((List.range 8).filter fun c => (s.readByte (s.dataAddr r)).getLsbD (7 - c)).map fun c =>
        (((s.getV x).toNat + c) % W, ((s.getV y).toNat + r) % H)
    else []

/-- The pixels and VF after a drawn sprite (43_display R255, R259): each covered pixel flipped, every other pixel as it was, and VF = 1
exactly when a covered pixel was on. -/
def Drawn (policy : Config.VerticalPolicy) (s : State.Sized W H) (x y n : Nibble) (t : State.Sized W H) : Prop :=
  (∀ col row : Nat, col < W → row < H →
    (Framebuffer.pixel t.fb col row = true ↔
      ¬ (Framebuffer.pixel s.fb col row = true ↔ Covers policy s x y n col row))) ∧
  ((∃ col row : Nat, col < W ∧ row < H ∧ Covers policy s x y n col row ∧ Framebuffer.pixel s.fb col row = true) →
    t.getV 0xF = 1) ∧
  ((¬ ∃ col row : Nat, col < W ∧ row < H ∧ Covers policy s x y n col row ∧ Framebuffer.pixel s.fb col row = true) →
    t.getV 0xF = 0)

/-- The state of a fault (60_exceptions R284): the record, a silent tone, and everything else as it was. -/
def FaultedFrom (s : State.Sized W H) (code : FaultCode) (word : Option Word) (info : Word) (t : State.Sized W H) : Prop :=
  t.fault = some ⟨code, s.pc, word, info⟩ ∧ t.tone = false ∧
  t.v = s.v ∧ t.i = s.i ∧ t.pc = s.pc ∧ t.sp = s.sp ∧ t.stack = s.stack ∧ t.dt = s.dt ∧ t.st = s.st ∧
  t.keys = s.keys ∧ t.fb = s.fb ∧ t.mem = s.mem ∧ t.draws = s.draws

/-- Which instruction can raise which fault (60_exceptions R282), at a value of DRAW_VERTICAL. -/
def MayRaise (policy : Config.VerticalPolicy) (i : Instr) (code : FaultCode) : Prop :=
  (i = .ret ∧ code = .stackUnderflow) ∨
  ((∃ a, i = .callAddr a) ∧ code = .stackOverflow) ∨
  ((∃ x, i = .skpVx x ∨ i = .sknpVx x) ∧ code = .keyIndex) ∨
  ((∃ x, i = .addIVx x) ∧ code = .indexOverflow) ∨
  ((∃ x, i = .ldBVx x ∨ i = .ldMemVx x) ∧ (code = .memOutOfRange ∨ code = .glyphWrite)) ∨
  ((∃ x, i = .ldVxMem x) ∧ code = .memOutOfRange) ∨
  ((∃ x y n, i = .drwVxVyNibble x y n) ∧ (code = .memOutOfRange ∨ (policy = .fault ∧ code = .drawOutOfRange)))

/-- PC and the stack hold only values a run can give them: PC at most 0x10FE (`Bnnn` with nnn = 0xFFF and V0 = 0xFF, 40_control_flow
R138), and every entry the address of a fetched `2nnn`, at most 0xFFE (R131). -/
def PcBounded (s : State.Sized W H) : Prop :=
  s.pc.toNat ≤ 0x10FE ∧ ∀ (j : Nat) (h : j < 16), (s.stack[j]'h).toNat ≤ 0xFFE

/-- The glyph region holds the glyph table (20_memory R63, R64, R66). -/
def GlyphsIntact (table : Config.GlyphTable) (s : State.Sized W H) : Prop :=
  ∀ (a : Nat) (h : a < Config.glyphSize), s.readByte a = table[a]'h

/-- A halted core is silent (10_state R41). -/
def SilentWhenHalted (s : State.Sized W H) : Prop := s.fault ≠ none → s.tone = false

end Sys2Proof.Safety
end

