-- ==== Sys2Proof/Certificates/Slice0/Obligations.lean ====
section
/-! DEFINITION. The statements for the provers. Each says in its docstring which rule of spec/ it formalises; the log entries a
statement rests on are named there. -/

open Sys2Proof Sys2Proof.Machine Sys2Proof.Safety

/-! Encoding -/

/-- 30_encoding R90, R97: decoding the bytes of any instruction, whatever follows them, gives it back and leaves the rest. -/
def Obligations.DecodeOfEncode : Prop :=
  ∀ (i : Instr) (rest : List Byte), decode (encodeBytes i ++ rest) = .ok (i, rest)

/-- 30_encoding R97, R101: a word that decodes is the word of the instruction it decodes to, so no bit of it is dropped. -/
def Obligations.EncodeOfDecode : Prop :=
  ∀ (w : Word) (i : Instr), decodeWord w = .ok i → encode i = w

/-- 30_encoding R97: the nested dispatch and the mask and match table agree on every word, and no word matches two rows. -/
def Obligations.DecodeAgreesWithTable : Prop :=
  ∀ w : Word,
    (∀ i, decodeWord w = .ok i → ∃ r ∈ opcodeTable, r.takes w = true ∧ r.mnemonic = mnemonic i) ∧
    (∀ e, decodeWord w = .error e → ∀ r ∈ opcodeTable, r.takes w = false) ∧
    (∀ r ∈ opcodeTable, ∀ q ∈ opcodeTable, r.takes w = true → q.takes w = true → r = q)

/-- 30_encoding R98: of family 0x0 only 0x00E0 and 0x00EE decode; a step that fetches any other word of it faults DECODE. -/
def Obligations.FamilyZeroWholeWord : Prop :=
  ∀ w : Word, w.toNat / 4096 = 0 →
    (decodeWord w = .ok .cls ↔ w = 0x00E0) ∧
    (decodeWord w = .ok .ret ↔ w = 0x00EE) ∧
    (w ≠ 0x00E0 → w ≠ 0x00EE → ∀ s : State, s.fault = none → s.fetch = some w →
      ∃ t, step s = .next t ∧ FaultedFrom s .decode (some w) w t)

/-- 30_encoding R90: the six fields of a word. -/
def Obligations.FieldsOfWord : Prop :=
  ∀ w : Word,
    (fieldsOf w).op.toNat = w.toNat / 4096 ∧ (fieldsOf w).x.toNat = w.toNat / 256 % 16 ∧
    (fieldsOf w).y.toNat = w.toNat / 16 % 16 ∧ (fieldsOf w).n.toNat = w.toNat % 16 ∧
    (fieldsOf w).kk.toNat = w.toNat % 256 ∧ (fieldsOf w).nnn.toNat = w.toNat % 4096 ∧
    (fieldsOf w).wellFormed = true

/-- 30_encoding R97: words of each family, written out from the table, decode to what they stand for. -/
def Obligations.SampleWordsDecode : Prop :=
  decodeWord 0x00E0 = .ok .cls ∧ decodeWord 0x2300 = .ok (.callAddr 0x300) ∧
  decodeWord 0x3A05 = .ok (.seVxByte 0xA 0x05) ∧ decodeWord 0x8124 = .ok (.addVxVy 0x1 0x2) ∧
  decodeWord 0xD125 = .ok (.drwVxVyNibble 0x1 0x2 0x5) ∧ decodeWord 0xE39E = .ok (.skpVx 0x3) ∧
  decodeWord 0xF265 = .ok (.ldVxMem 0x2)

/-! The step -/

/-- 30_encoding R110: when the two bytes at PC decode to an instruction, the step of a core that is not halted is that instruction's
execution, followed by the tick if it did not fault and by nothing if it did. The same holds at every value of the parameters (10_state
R44), and at their defaults the execution and the step are those of `exec` and `step`. -/
def Obligations.StepRunsDecoded : Prop :=
  (∀ (s : State) (i : Instr), s.fault = none → s.pc.toNat + 1 ≤ 0xFFF →
    decode [s.readByte s.pc.toNat, s.readByte (s.pc.toNat + 1)] = .ok (i, []) →
    step s = finishStep (exec i s) ∧
    (∀ u, exec i s = .next u → u.fault = none → step s = .next u.tick) ∧
    (∀ u r, exec i s = .next u → u.fault = some r → step s = .next u)) ∧
  (∀ (W H : Nat) (p : Config.Params) (s : State.Sized W H) (i : Instr), s.fault = none → s.pc.toNat + 1 ≤ 0xFFF →
    decode [s.readByte s.pc.toNat, s.readByte (s.pc.toNat + 1)] = .ok (i, []) →
    stepWith p s = finishStep (execWith p i s)) ∧
  (∀ (i : Instr) (s : State), execWith Config.params i s = exec i s) ∧
  (∀ s : State, stepWith Config.params s = step s)

/-- 20_memory R71: the fetch is big-endian, and faults FETCH_OUT_OF_RANGE when PC + 1 > 0xFFF. -/
def Obligations.FetchBigEndian : Prop :=
  ∀ s : State,
    (s.pc.toNat + 1 ≤ 0xFFF → ∃ w, s.fetch = some w ∧
      w.toNat = (s.readByte s.pc.toNat).toNat * 256 + (s.readByte (s.pc.toNat + 1)).toNat) ∧
    (s.pc.toNat + 1 > 0xFFF → s.fault = none →
      ∃ t, step s = .next t ∧ FaultedFrom s .fetchOutOfRange none s.pc t)

/-- 30_encoding R99: a fetched word that matches no row faults DECODE with nothing else changed (R281, R284), and every later step leaves
the core there (R117, R285). What a later step does is the spec's own decision D11: no sentence of the source gives it. -/
def Obligations.UnmatchedWordFaults : Prop :=
  ∀ (s : State) (w : Word), s.fault = none → s.fetch = some w → (∀ r ∈ opcodeTable, r.takes w = false) →
    ∃ t, step s = .next t ∧ FaultedFrom s .decode (some w) w t ∧ step t = .next t

/-- 30_encoding R117: a step of the halted core changes TONE alone and reports the recorded fault; of the host's operations only
reset() clears the fault. -/
def Obligations.HaltedUntilReset : Prop :=
  ∀ (s : State) (r : FaultRecord), s.fault = some r →
    (∃ t, step s = .next t ∧ t.tone = false ∧ t = { s with tone := t.tone }) ∧
    stepResult s = .faulted r ∧
    (∀ c : HostCall, c ≠ .reset → (hostCall c s).2.fault = some r) ∧
    (hostCall .reset s).2.fault = none

/-- 60_exceptions R284: a step that faults changes FAULT and TONE alone, whatever the fault; the record's word is the fetched word
and its pc the PC of the step (R281). The second clause says it at every value of the parameters (10_state R44), DRAW_OUT_OF_RANGE
included. -/
def Obligations.FaultsAreAtomic : Prop :=
  (∀ (s t : State) (r : FaultRecord), s.fault = none → step s = .next t → t.fault = some r →
    FaultedFrom s r.code s.fetch r.info t) ∧
  (∀ (W H : Nat) (p : Config.Params) (s t : State.Sized W H) (r : FaultRecord), s.fault = none → stepWith p s = .next t →
    t.fault = some r → FaultedFrom s r.code s.fetch r.info t)

/-- 60_exceptions R293, R295 (the spec's own decisions D25, D24): the tick at the end of a completed step acts on the timers the instruction
left; a faulting or halted step does not tick. -/
def Obligations.TimersTick : Prop :=
  (∀ (s u : State) (i : Instr) (w : Word), s.fault = none → s.fetch = some w → decodeWord w = .ok i →
    exec i s = .next u → u.fault = none →
    ∃ t, step s = .next t ∧ (t.tone = true ↔ 0 < u.st.toNat) ∧
      t.dt.toNat = u.dt.toNat - 1 ∧ t.st.toNat = u.st.toNat - 1 ∧
      t = { u with tone := t.tone, dt := t.dt, st := t.st }) ∧
  (∀ s t : State, step s = .next t → t.fault ≠ none → t.dt = s.dt ∧ t.st = s.st)

/-- 60_exceptions R295 (the spec's own decision D24): ST = v set by `Fx18` gives a tone in exactly v consecutive completed steps, the `Fx18`
step counted, while no later step of them is an `Fx18`. -/
def Obligations.ToneForExactlyVSteps : Prop :=
  ∀ (s : State) (x : Nibble) (n : Nat), s.nextInstr = some (.ldSTVx x) →
    (∀ k, k < n → (after (k + 1) s).fault = none) →
    (∀ k, 0 < k → k < n → ∀ y : Nibble, (after k s).nextInstr ≠ some (.ldSTVx y)) →
    ∀ k, 0 < k → k ≤ n →
      ((after k s).tone = true ↔ k ≤ (s.getV x).toNat) ∧ (after k s).st.toNat = (s.getV x).toNat - k

/-- 30_encoding R116: the three results of a step. That a result is computed by `stepResult` and is no state is the model's reading (log
entry 8, DEDUCED); that `Fx0A` without a pressed key is Blocked is the spec's own decision D17. -/
def Obligations.StepResults : Prop :=
  ∀ s t : State, step s = .next t →
    (∀ r, t.fault = some r → stepResult s = .faulted r) ∧
    (t.fault = none → ∀ x : Nibble, s.nextInstr = some (.ldVxK x) → (∀ k : Fin 16, s.keys[k] = false) →
      stepResult s = .blocked) ∧
    (t.fault = none → ∀ (x : Nibble) (k : Fin 16), s.nextInstr = some (.ldVxK x) → s.keys[k] = true →
      stepResult s = .ok) ∧
    (t.fault = none → (∀ x : Nibble, s.nextInstr ≠ some (.ldVxK x)) → stepResult s = .ok)

/-! Reset and the invariants -/

/-- 70_reset_and_hazards R331, 10_state R51: every component after reset(), from any state, halted included, at every value of the
parameters (20_memory R63, 10_state R44); the core's own reset state is that of the default table (log entry 3) and display size (log
entry 4). The random source is not moved (R334). -/
def Obligations.ResetState : Prop :=
  (State.Sized.resetWith Config.glyphTable : State) = State.reset ∧
  (∀ s : State, hostCall .reset s = (.ok, { State.reset with draws := s.draws })) ∧
  ∀ (W H : Nat) (p : Config.Params) (s : State.Sized W H), ∃ t, hostCallWith p .reset s = (.ok, t) ∧
    t = { State.Sized.resetWith p.glyphTable with draws := s.draws } ∧
    (∀ r : Nibble, t.getV r = 0) ∧ t.i = 0 ∧ t.pc = 0x200 ∧ t.sp.val = 0 ∧
    (∀ j : Fin 16, t.stack[j] = 0) ∧ t.dt = 0 ∧ t.st = 0 ∧ (∀ k : Fin 16, t.keys[k] = false) ∧
    (∀ col row : Nat, Framebuffer.pixel t.fb col row = false) ∧
    (∀ (a : Nat) (h : a < 80), t.readByte a = p.glyphTable[a]'h) ∧ (∀ a : Nat, 80 ≤ a → t.readByte a = 0) ∧
    t.fault = none ∧ t.tone = false ∧ t.draws = s.draws

/-- The invariants below hold at reset (70_reset_and_hazards R331), at every display size and value of GLYPH_TABLE (20_memory R63) and so
at the defaults. -/
def Obligations.InvariantsAtReset : Prop :=
  (∀ (W H : Nat) (table : Config.GlyphTable), Memory.wf (State.Sized.resetWith table : State.Sized W H).mem = true ∧
    PcBounded (State.Sized.resetWith table : State.Sized W H) ∧ GlyphsIntact table (State.Sized.resetWith table : State.Sized W H) ∧
    SilentWhenHalted (State.Sized.resetWith table : State.Sized W H)) ∧
  Memory.wf State.reset.mem = true ∧ PcBounded State.reset ∧ GlyphsIntact Config.glyphTable State.reset ∧
  SilentWhenHalted State.reset

/-- 20_memory R60, R68: every step keeps memory in its canonical form, with no address outside 0x000 to 0xFFF. -/
def Obligations.StepKeepsMemoryForm : Prop :=
  ∀ s t : State, Memory.wf s.mem = true → step s = .next t → Memory.wf t.mem = true

/-- 40_control_flow R130, R131, R138; 10_state R42: every step keeps PC at most 0x10FE and every stack entry at most 0xFFE. -/
def Obligations.StepKeepsPcBounded : Prop :=
  ∀ s t : State, PcBounded s → step s = .next t → PcBounded t

/-- 20_memory R64: no step changes a byte of the glyph region, nor does loadProgram; a store that would reach it faults with nothing
written. -/
def Obligations.GlyphRegionReadOnly : Prop :=
  (∀ s t : State, step s = .next t → ∀ a, a < 0x050 → t.readByte a = s.readByte a) ∧
  (∀ (s : State) (bytes : List Byte) (a : Nat), a < 0x050 →
    (hostCall (.loadProgram bytes) s).2.readByte a = s.readByte a) ∧
  (∀ (s : State) (x : Nibble), s.i.toNat < 0x050 →
    (∃ t, exec (.ldBVx x) s = .next t ∧ FaultedFrom s .glyphWrite (some (0xF#4 ++ x ++ 0x33#8)) s.i t) ∧
    (∃ t, exec (.ldMemVx x) s = .next t ∧ FaultedFrom s .glyphWrite (some (0xF#4 ++ x ++ 0x55#8)) s.i t))

/-- 20_memory R60, R63, R64, R66; 10_state R41, R42, R44: each invariant is kept by every host operation, steps and resets included, at
every value of the parameters: the canonical memory, the bounds of PC and the stack, the intact glyph table, and the silence of a
halted core. At the defaults the operations are this hardware's. -/
def Obligations.HostOperationsKeepInvariants : Prop :=
  (∀ (W H : Nat) (p : Config.Params) (c : HostCall) (s : State.Sized W H),
    (Memory.wf s.mem = true → Memory.wf (hostCallWith p c s).2.mem = true) ∧
    (PcBounded s → PcBounded (hostCallWith p c s).2) ∧
    (GlyphsIntact p.glyphTable s → GlyphsIntact p.glyphTable (hostCallWith p c s).2) ∧
    (SilentWhenHalted s → SilentWhenHalted (hostCallWith p c s).2)) ∧
  (∀ (c : HostCall) (s : State), hostCallWith Config.params c s = hostCall c s)

/-- The step of every state is a next state, at every value of the parameters (10_state R44), and the model stops nowhere. This is the
model's reading (log entry 7, DEDUCED) of 60_exceptions R284, which gives the whole state after a fault, and of R286, by which a fault
is the result of the step; the spec does not say it in these words. -/
def Obligations.StepAlwaysAnswers : Prop :=
  (∀ s : State, ∃ t, step s = .next t) ∧ (∀ (i : Instr) (s : State), ∃ t, exec i s = .next t) ∧
  (∀ (W H : Nat) (p : Config.Params) (s : State.Sized W H), ∃ t, stepWith p s = .next t) ∧
  (∀ (W H : Nat) (p : Config.Params) (i : Instr) (s : State.Sized W H), ∃ t, execWith p i s = .next t)

/-- 10_state R25, R33 to R35, R37, R38; 20_memory R75, R76; 41_alu R196: which instructions write I, SP and the stack, DT, ST, memory, the
pixels and the keys, and which take random bytes. R25, on I, is the spec's own decision D23. It says nothing of the general registers,
PC, FAULT and TONE. -/
def Obligations.ComponentWriters : Prop :=
  ∀ (i : Instr) (s t : State), exec i s = .next t →
    ((∀ a, i ≠ .ldIAddr a) → (∀ x, i ≠ .addIVx x) → (∀ x, i ≠ .ldFVx x) → t.i = s.i) ∧
    ((∀ a, i ≠ .callAddr a) → i ≠ .ret → t.sp = s.sp ∧ t.stack = s.stack) ∧
    ((∀ x, i ≠ .ldDTVx x) → t.dt = s.dt) ∧
    ((∀ x, i ≠ .ldSTVx x) → t.st = s.st) ∧
    ((∀ x, i ≠ .ldBVx x) → (∀ x, i ≠ .ldMemVx x) → t.mem = s.mem) ∧
    (i ≠ .cls → (∀ x y n, i ≠ .drwVxVyNibble x y n) → t.fb = s.fb) ∧
    ((∀ x kk, i ≠ .rndVxByte x kk) → t.draws = s.draws) ∧
    t.keys = s.keys

/-- 60_exceptions R282: which instruction can raise which fault, at every value of the parameters. `Dxyn` raises DRAW_OUT_OF_RANGE under
DRAW_VERTICAL = fault alone (R257); that it never does so on this hardware rests on DRAW_VERTICAL = clip, a choice (the spec's own
decision D19, log entry 2). -/
def Obligations.WhoRaisesWhat : Prop :=
  (∀ (W H : Nat) (p : Config.Params) (i : Instr) (s t : State.Sized W H) (r : FaultRecord), s.fault = none →
    execWith p i s = .next t → t.fault = some r → MayRaise p.drawVertical i r.code) ∧
  (∀ (i : Instr) (s t : State) (r : FaultRecord), s.fault = none → exec i s = .next t → t.fault = some r →
    MayRaise .clip i r.code)

/-- 30_encoding R118, 41_alu R196: no instruction but `Cxkk` depends on the random source, and none but `Cxkk` moves it. -/
def Obligations.OnlyRndReadsRandom : Prop :=
  ∀ (i : Instr) (s t : State) (k : Nat), (∀ x kk, i ≠ .rndVxByte x kk) → exec i s = .next t →
    exec i { s with draws := k } = .next { t with draws := k }

/-! Control flow -/

/-- 40_control_flow R131: RET, and its fault on an empty stack. -/
def Obligations.ReturnPops : Prop :=
  ∀ s : State, decodeWord 0x00EE = .ok .ret ∧
    (∀ h : 0 < s.sp.val, ∃ t, exec .ret s = .next t ∧
      t.pc = s.stack[s.sp.val - 1]'(by omega) + 2 ∧ t.sp.val = s.sp.val - 1 ∧ t.stack = s.stack ∧
      Frame { stack := true } s t) ∧
    (s.sp.val = 0 → ∃ t, exec .ret s = .next t ∧ FaultedFrom s .stackUnderflow (some 0x00EE) 0 t)

/-- 40_control_flow R132: JP. -/
def Obligations.JumpLands : Prop :=
  ∀ (nnn : Addr) (s : State), decodeWord (0x1#4 ++ nnn) = .ok (.jpAddr nnn) ∧
    ∃ t, exec (.jpAddr nnn) s = .next t ∧ t.pc.toNat = nnn.toNat ∧ Frame {} s t

/-- 40_control_flow R133: CALL pushes its own address; with 16 entries in use it faults. -/
def Obligations.CallPushes : Prop :=
  ∀ (nnn : Addr) (s : State), decodeWord (0x2#4 ++ nnn) = .ok (.callAddr nnn) ∧
    (∀ h : s.sp.val < 16, ∃ t, exec (.callAddr nnn) s = .next t ∧
      t.stack[s.sp.val]'h = s.pc ∧ (∀ (j : Nat) (hj : j < 16), j ≠ s.sp.val → t.stack[j]'hj = s.stack[j]'hj) ∧
      t.sp.val = s.sp.val + 1 ∧ t.pc.toNat = nnn.toNat ∧ Frame { stack := true } s t) ∧
    (s.sp.val = 16 → ∃ t, exec (.callAddr nnn) s = .next t ∧
      ∃ info : Word, info.toNat = nnn.toNat ∧ FaultedFrom s .stackOverflow (some (0x2#4 ++ nnn)) info t)

/-- 40_control_flow R131, R133: a call and then a return resume at the instruction after the call, with the same entries in use. -/
def Obligations.CallThenReturn : Prop :=
  ∀ (nnn : Addr) (s : State), s.sp.val < 16 →
    ∃ t u, exec (.callAddr nnn) s = .next t ∧ exec .ret t = .next u ∧
      u.pc = s.pc + 2 ∧ u.sp = s.sp ∧ Frame { stack := true } s u

/-- 40_control_flow R134, R135: the skips on an immediate. -/
def Obligations.SkipsOnByte : Prop :=
  ∀ (x : Nibble) (kk : Byte) (s : State),
    decodeWord (0x3#4 ++ x ++ kk) = .ok (.seVxByte x kk) ∧ decodeWord (0x4#4 ++ x ++ kk) = .ok (.sneVxByte x kk) ∧
    (∃ t, exec (.seVxByte x kk) s = .next t ∧ t.pc = (if s.getV x = kk then s.pc + 4 else s.pc + 2) ∧ Frame {} s t) ∧
    (∃ t, exec (.sneVxByte x kk) s = .next t ∧ t.pc = (if s.getV x = kk then s.pc + 2 else s.pc + 4) ∧ Frame {} s t)

/-- 40_control_flow R136, R137: the skips on two registers; with x = y the first always skips and the second never. -/
def Obligations.SkipsOnRegisters : Prop :=
  ∀ (x y : Nibble) (s : State),
    decodeWord (0x5#4 ++ x ++ y ++ 0x0#4) = .ok (.seVxVy x y) ∧ decodeWord (0x9#4 ++ x ++ y ++ 0x0#4) = .ok (.sneVxVy x y) ∧
    (∃ t, exec (.seVxVy x y) s = .next t ∧ t.pc = (if s.getV x = s.getV y then s.pc + 4 else s.pc + 2) ∧ Frame {} s t) ∧
    (∃ t, exec (.sneVxVy x y) s = .next t ∧ t.pc = (if s.getV x = s.getV y then s.pc + 2 else s.pc + 4) ∧ Frame {} s t)

/-- 40_control_flow R138: JP V0 is not reduced modulo 4096. -/
def Obligations.JumpWithOffset : Prop :=
  ∀ (nnn : Addr) (s : State), decodeWord (0xB#4 ++ nnn) = .ok (.jpV0Addr nnn) ∧
    ∃ t, exec (.jpV0Addr nnn) s = .next t ∧ t.pc.toNat = nnn.toNat + (s.getV 0).toNat ∧ Frame {} s t

/-- 40_control_flow R139, R140: the skips on a key, and KEY_INDEX above 15. -/
def Obligations.SkipsOnKey : Prop :=
  ∀ (x : Nibble) (s : State),
    decodeWord (0xE#4 ++ x ++ 0x9E#8) = .ok (.skpVx x) ∧ decodeWord (0xE#4 ++ x ++ 0xA1#8) = .ok (.sknpVx x) ∧
    (∀ h : (s.getV x).toNat < 16,
      (∃ t, exec (.skpVx x) s = .next t ∧
        t.pc = (if s.keys[(s.getV x).toNat]'h = true then s.pc + 4 else s.pc + 2) ∧ Frame {} s t) ∧
      (∃ t, exec (.sknpVx x) s = .next t ∧
        t.pc = (if s.keys[(s.getV x).toNat]'h = true then s.pc + 2 else s.pc + 4) ∧ Frame {} s t)) ∧
    (15 < (s.getV x).toNat → ∃ info : Word, info.toNat = (s.getV x).toNat ∧
      (∃ t, exec (.skpVx x) s = .next t ∧ FaultedFrom s .keyIndex (some (0xE#4 ++ x ++ 0x9E#8)) info t) ∧
      (∃ t, exec (.sknpVx x) s = .next t ∧ FaultedFrom s .keyIndex (some (0xE#4 ++ x ++ 0xA1#8)) info t))

/-! Registers and arithmetic -/

/-- 41_alu R171, R173: the register loads, x = 0xF included. -/
def Obligations.RegisterLoads : Prop :=
  ∀ (x y : Nibble) (kk : Byte) (s : State),
    decodeWord (0x6#4 ++ x ++ kk) = .ok (.ldVxByte x kk) ∧ decodeWord (0x8#4 ++ x ++ y ++ 0x0#4) = .ok (.ldVxVy x y) ∧
    (∃ t, exec (.ldVxByte x kk) s = .next t ∧ t.getV x = kk ∧ t.pc = s.pc + 2 ∧ Frame { regs := [x] } s t) ∧
    (∃ t, exec (.ldVxVy x y) s = .next t ∧ t.getV x = s.getV y ∧ t.pc = s.pc + 2 ∧ Frame { regs := [x] } s t)

/-- 41_alu R172: ADD Vx, byte wraps and writes no flag. -/
def Obligations.AddImmediate : Prop :=
  ∀ (x : Nibble) (kk : Byte) (s : State), decodeWord (0x7#4 ++ x ++ kk) = .ok (.addVxByte x kk) ∧
    ∃ t, exec (.addVxByte x kk) s = .next t ∧ (t.getV x).toNat = ((s.getV x).toNat + kk.toNat) % 256 ∧
      t.pc = s.pc + 2 ∧ Frame { regs := [x] } s t

/-- 41_alu R174, R175, R176: the bitwise operations, bit by bit, with no flag. -/
def Obligations.BitwiseLogic : Prop :=
  ∀ (x y : Nibble) (s : State),
    decodeWord (0x8#4 ++ x ++ y ++ 0x1#4) = .ok (.orVxVy x y) ∧ decodeWord (0x8#4 ++ x ++ y ++ 0x2#4) = .ok (.andVxVy x y) ∧
    decodeWord (0x8#4 ++ x ++ y ++ 0x3#4) = .ok (.xorVxVy x y) ∧
    (∃ t, exec (.orVxVy x y) s = .next t ∧
      (∀ j, j < 8 → (t.getV x).getLsbD j = ((s.getV x).getLsbD j || (s.getV y).getLsbD j)) ∧
      t.pc = s.pc + 2 ∧ Frame { regs := [x] } s t) ∧
    (∃ t, exec (.andVxVy x y) s = .next t ∧
      (∀ j, j < 8 → (t.getV x).getLsbD j = ((s.getV x).getLsbD j && (s.getV y).getLsbD j)) ∧
      t.pc = s.pc + 2 ∧ Frame { regs := [x] } s t) ∧
    (∃ t, exec (.xorVxVy x y) s = .next t ∧
      (∀ j, j < 8 → (t.getV x).getLsbD j = ((s.getV x).getLsbD j != (s.getV y).getLsbD j)) ∧
      t.pc = s.pc + 2 ∧ Frame { regs := [x] } s t)

/-- 41_alu R177: ADD Vx, Vy; VF is the carry, written last. -/
def Obligations.AddWithCarry : Prop :=
  ∀ (x y : Nibble) (s : State), decodeWord (0x8#4 ++ x ++ y ++ 0x4#4) = .ok (.addVxVy x y) ∧
    ∃ t, exec (.addVxVy x y) s = .next t ∧
      (x ≠ 0xF → (t.getV x).toNat = ((s.getV x).toNat + (s.getV y).toNat) % 256) ∧
      (t.getV 0xF).toNat = (if (s.getV x).toNat + (s.getV y).toNat > 255 then 1 else 0) ∧
      t.pc = s.pc + 2 ∧ Frame { regs := [x, 0xF] } s t

/-- 41_alu R178, R180: SUB and SUBN saturate at 0; VF = 1 exactly when the operand subtracted from is above the other, so equal
operands give 0 and VF = 0. -/
def Obligations.SubtractsSaturate : Prop :=
  ∀ (x y : Nibble) (s : State),
    decodeWord (0x8#4 ++ x ++ y ++ 0x5#4) = .ok (.subVxVy x y) ∧ decodeWord (0x8#4 ++ x ++ y ++ 0x7#4) = .ok (.subnVxVy x y) ∧
    (∃ t, exec (.subVxVy x y) s = .next t ∧
      (x ≠ 0xF → (t.getV x).toNat = (s.getV x).toNat - (s.getV y).toNat) ∧
      (t.getV 0xF).toNat = (if (s.getV x).toNat > (s.getV y).toNat then 1 else 0) ∧
      t.pc = s.pc + 2 ∧ Frame { regs := [x, 0xF] } s t) ∧
    (∃ t, exec (.subnVxVy x y) s = .next t ∧
      (x ≠ 0xF → (t.getV x).toNat = (s.getV y).toNat - (s.getV x).toNat) ∧
      (t.getV 0xF).toNat = (if (s.getV y).toNat > (s.getV x).toNat then 1 else 0) ∧
      t.pc = s.pc + 2 ∧ Frame { regs := [x, 0xF] } s t)

/-- 41_alu R179: SHR; VF = the bit shifted out; y is ignored. -/
def Obligations.ShiftRight : Prop :=
  ∀ (x y : Nibble) (s : State), decodeWord (0x8#4 ++ x ++ y ++ 0x6#4) = .ok (.shrVx x y) ∧
    ∃ t, exec (.shrVx x y) s = .next t ∧
      (x ≠ 0xF → (t.getV x).toNat = (s.getV x).toNat / 2) ∧ (t.getV 0xF).toNat = (s.getV x).toNat % 2 ∧
      t.pc = s.pc + 2 ∧ Frame { regs := [x, 0xF] } s t

/-- 41_alu R181: SHL; VF is 0x80 or 0 on this hardware (SHL_VF_RAW = true, log entry 2), and 1 or 0 at the parameter's other value;
y is ignored. The second clause is at every value of the parameters. -/
def Obligations.ShiftLeft : Prop :=
  (∀ (x y : Nibble) (s : State), decodeWord (0x8#4 ++ x ++ y ++ 0xE#4) = .ok (.shlVx x y) ∧
    ∃ t, exec (.shlVx x y) s = .next t ∧
      (x ≠ 0xF → (t.getV x).toNat = (s.getV x).toNat * 2 % 256) ∧
      (t.getV 0xF).toNat = (if (s.getV x).toNat ≥ 128 then 0x80 else 0) ∧
      t.pc = s.pc + 2 ∧ Frame { regs := [x, 0xF] } s t) ∧
  (∀ (W H : Nat) (p : Config.Params) (x y : Nibble) (s : State.Sized W H), ∃ t, execWith p (.shlVx x y) s = .next t ∧
      (x ≠ 0xF → (t.getV x).toNat = (s.getV x).toNat * 2 % 256) ∧
      (t.getV 0xF).toNat = (if (s.getV x).toNat ≥ 128 then (if p.shlVfRaw then 0x80 else 1) else 0) ∧
      t.pc = s.pc + 2 ∧ Frame { regs := [x, 0xF] } s t)

/-- 41_alu R182, R196: RND takes exactly one byte, whatever kk is. The byte is the free value of log entry 1: the statement holds
whatever it is. -/
def Obligations.RandomUnderMask : Prop :=
  ∀ (x : Nibble) (kk : Byte) (s : State), decodeWord (0xC#4 ++ x ++ kk) = .ok (.rndVxByte x kk) ∧
    ∃ t, exec (.rndVxByte x kk) s = .next t ∧ t.draws = s.draws + 1 ∧
      (∀ j, j < 8 → (t.getV x).getLsbD j = ((Config.randomByte s.draws).getLsbD j && kk.getLsbD j)) ∧
      t.pc = s.pc + 2 ∧ Frame { regs := [x], draws := true } s t

/-! Address register, timers, key wait, memory -/

/-- 42_memory_timers R211: LD I, with its net advance of 4 on this hardware (ANNN_EXTRA_ADVANCE = true, log entry 2) and of 2 at
the parameter's other value. The second clause is at every value of the parameters. -/
def Obligations.LoadAddressRegister : Prop :=
  (∀ (nnn : Addr) (s : State), decodeWord (0xA#4 ++ nnn) = .ok (.ldIAddr nnn) ∧
    ∃ t, exec (.ldIAddr nnn) s = .next t ∧ t.i.toNat = nnn.toNat ∧ t.pc = s.pc + 4 ∧ Frame { i := true } s t) ∧
  (∀ (W H : Nat) (p : Config.Params) (nnn : Addr) (s : State.Sized W H), ∃ t, execWith p (.ldIAddr nnn) s = .next t ∧
    t.i.toNat = nnn.toNat ∧ t.pc = (if p.annnExtraAdvance then s.pc + 4 else s.pc + 2) ∧ Frame { i := true } s t)

/-- 42_memory_timers R212, R214, R215: the timer reads and writes; the tick of the same step then acts on the value written. -/
def Obligations.TimerTransfers : Prop :=
  ∀ (x : Nibble) (s : State),
    decodeWord (0xF#4 ++ x ++ 0x07#8) = .ok (.ldVxDT x) ∧ decodeWord (0xF#4 ++ x ++ 0x15#8) = .ok (.ldDTVx x) ∧
    decodeWord (0xF#4 ++ x ++ 0x18#8) = .ok (.ldSTVx x) ∧
    (∃ t, exec (.ldVxDT x) s = .next t ∧ t.getV x = s.dt ∧ t.pc = s.pc + 2 ∧ Frame { regs := [x] } s t ∧
      t.tick.dt.toNat = s.dt.toNat - 1) ∧
    (∃ t, exec (.ldDTVx x) s = .next t ∧ t.dt = s.getV x ∧ t.pc = s.pc + 2 ∧ Frame { dt := true } s t ∧
      t.tick.dt.toNat = (s.getV x).toNat - 1) ∧
    (∃ t, exec (.ldSTVx x) s = .next t ∧ t.st = s.getV x ∧ t.pc = s.pc + 2 ∧ Frame { st := true } s t ∧
      t.tick.st.toNat = (s.getV x).toNat - 1 ∧ (t.tick.tone = true ↔ 0 < (s.getV x).toNat))

/-- 42_memory_timers R213: the key wait, as the instruction and as the step: the least pressed key, or a Blocked step that ticks. -/
def Obligations.KeyWait : Prop :=
  ∀ (x : Nibble) (s : State), decodeWord (0xF#4 ++ x ++ 0x0A#8) = .ok (.ldVxK x) ∧
    (∀ k : Fin 16, s.keys[k] = true → (∀ j : Fin 16, j < k → s.keys[j] = false) →
      (∃ t, exec (.ldVxK x) s = .next t ∧ (t.getV x).toNat = k.val ∧ t.pc = s.pc + 2 ∧ Frame { regs := [x] } s t) ∧
      (s.fault = none → s.fetch = some (0xF#4 ++ x ++ 0x0A#8) → stepResult s = .ok)) ∧
    ((∀ k : Fin 16, s.keys[k] = false) →
      (∃ t, exec (.ldVxK x) s = .next t ∧ t.pc = s.pc ∧ Frame {} s t) ∧
      (s.fault = none → s.fetch = some (0xF#4 ++ x ++ 0x0A#8) →
        stepResult s = .blocked ∧ step s = .next s.tick))

/-- 42_memory_timers R216: ADD I, with no flag, and INDEX_OVERFLOW past 0xFFFF. -/
def Obligations.AddToAddressRegister : Prop :=
  ∀ (x : Nibble) (s : State), decodeWord (0xF#4 ++ x ++ 0x1E#8) = .ok (.addIVx x) ∧
    (s.i.toNat + (s.getV x).toNat ≤ 0xFFFF → ∃ t, exec (.addIVx x) s = .next t ∧
      t.i.toNat = s.i.toNat + (s.getV x).toNat ∧ t.pc = s.pc + 2 ∧ Frame { i := true } s t) ∧
    (s.i.toNat + (s.getV x).toNat > 0xFFFF → ∃ t, exec (.addIVx x) s = .next t ∧
      ∃ info : Word, info.toNat = (s.getV x).toNat ∧ FaultedFrom s .indexOverflow (some (0xF#4 ++ x ++ 0x1E#8)) info t)

/-- 42_memory_timers R217, 20_memory R62, R63: LD F points I at 5 * Vx, unmasked; for a digit and intact glyphs the five bytes there
are the digit's glyph in GLYPH_TABLE, whichever table that is. -/
def Obligations.GlyphAddress : Prop :=
  ∀ (x : Nibble) (s : State), decodeWord (0xF#4 ++ x ++ 0x29#8) = .ok (.ldFVx x) ∧
    ∃ t, exec (.ldFVx x) s = .next t ∧ t.i.toNat = 5 * (s.getV x).toNat ∧ t.pc = s.pc + 2 ∧ Frame { i := true } s t ∧
      ∀ table : Config.GlyphTable, GlyphsIntact table s → ∀ hd : (s.getV x).toNat < 16, ∀ (k : Nat) (hk : k < 5),
        t.readByte (t.dataAddr k) = table[5 * (s.getV x).toNat + k]'(show 5 * (s.getV x).toNat + k < 80 by omega)

/-- 42_memory_timers R218: LD B stores the three decimal digits, or faults with nothing written. -/
def Obligations.StoreDecimalDigits : Prop :=
  ∀ (x : Nibble) (s : State), decodeWord (0xF#4 ++ x ++ 0x33#8) = .ok (.ldBVx x) ∧
    (0x050 ≤ s.i.toNat → s.i.toNat + 2 ≤ 0xFFF → ∃ t, exec (.ldBVx x) s = .next t ∧
      (t.readByte (s.dataAddr 0)).toNat = (s.getV x).toNat / 100 ∧
      (t.readByte (s.dataAddr 1)).toNat = (s.getV x).toNat / 10 % 10 ∧
      (t.readByte (s.dataAddr 2)).toNat = (s.getV x).toNat % 10 ∧
      t.pc = s.pc + 2 ∧ Frame { stored := (s.dataAddr 0, 3) } s t) ∧
    (s.i.toNat + 2 > 0xFFF → ∃ t, exec (.ldBVx x) s = .next t ∧
      ∃ info : Word, info.toNat = max s.i.toNat 0x1000 ∧ FaultedFrom s .memOutOfRange (some (0xF#4 ++ x ++ 0x33#8)) info t) ∧
    (s.i.toNat < 0x050 → ∃ t, exec (.ldBVx x) s = .next t ∧
      FaultedFrom s .glyphWrite (some (0xF#4 ++ x ++ 0x33#8)) s.i t)

/-- 42_memory_timers R219: LD [I], Vx stores V0 to Vx, or faults with nothing written. -/
def Obligations.StoreRegisters : Prop :=
  ∀ (x : Nibble) (s : State), decodeWord (0xF#4 ++ x ++ 0x55#8) = .ok (.ldMemVx x) ∧
    (0x050 ≤ s.i.toNat → s.i.toNat + x.toNat ≤ 0xFFF → ∃ t, exec (.ldMemVx x) s = .next t ∧
      (∀ r : Nibble, r ≤ x → t.readByte (s.dataAddr r.toNat) = s.getV r) ∧
      t.pc = s.pc + 2 ∧ Frame { stored := (s.dataAddr 0, x.toNat + 1) } s t) ∧
    (s.i.toNat + x.toNat > 0xFFF → ∃ t, exec (.ldMemVx x) s = .next t ∧
      ∃ info : Word, info.toNat = max s.i.toNat 0x1000 ∧ FaultedFrom s .memOutOfRange (some (0xF#4 ++ x ++ 0x55#8)) info t) ∧
    (s.i.toNat < 0x050 → ∃ t, exec (.ldMemVx x) s = .next t ∧
      FaultedFrom s .glyphWrite (some (0xF#4 ++ x ++ 0x55#8)) s.i t)

/-- 42_memory_timers R220: LD Vx, [I] loads V0 to Vx; the registers above x keep their values. -/
def Obligations.LoadRegisters : Prop :=
  ∀ (x : Nibble) (s : State), decodeWord (0xF#4 ++ x ++ 0x65#8) = .ok (.ldVxMem x) ∧
    (s.i.toNat + x.toNat ≤ 0xFFF → ∃ t, exec (.ldVxMem x) s = .next t ∧
      (∀ r : Nibble, t.getV r = if r ≤ x then s.readByte (s.dataAddr r.toNat) else s.getV r) ∧
      t.pc = s.pc + 2 ∧ Frame { regs := [0x0, 0x1, 0x2, 0x3, 0x4, 0x5, 0x6, 0x7, 0x8, 0x9, 0xA, 0xB, 0xC, 0xD, 0xE, 0xF] } s t) ∧
    (s.i.toNat + x.toNat > 0xFFF → ∃ t, exec (.ldVxMem x) s = .next t ∧
      ∃ info : Word, info.toNat = max s.i.toNat 0x1000 ∧ FaultedFrom s .memOutOfRange (some (0xF#4 ++ x ++ 0x65#8)) info t)

/-- 42_memory_timers R219, R220 (the source's round trip): storing V0 to Vx and loading them into any other register file gives the
stored values back, for every x. That I is unchanged is the spec's own decision D23. -/
def Obligations.StoreLoadRoundTrip : Prop :=
  ∀ (x : Nibble) (s : State) (v : Vector Byte 16), 0x050 ≤ s.i.toNat → s.i.toNat + x.toNat ≤ 0xFFF →
    ∃ t u, exec (.ldMemVx x) s = .next t ∧ exec (.ldVxMem x) { t with v := v } = .next u ∧ u.i = s.i ∧
      ∀ r : Nibble, u.getV r = if r ≤ x then s.getV r else v[r.toNat]'r.isLt

/-! Display -/

/-- 43_display R254: CLS. -/
def Obligations.ClearDisplay : Prop :=
  ∀ s : State, decodeWord 0x00E0 = .ok .cls ∧
    ∃ t, exec .cls s = .next t ∧ (∀ col row : Nat, Framebuffer.pixel t.fb col row = false) ∧
      t.pc = s.pc + 2 ∧ Frame { fb := true } s t

/-- 43_display R255, R256, R259: DRW on this hardware (DRAW_VERTICAL = clip, D19, log entry 2; 64 by 32 pixels, D1, log entry 4): the pixels,
the collision flag, and the range fault over all n bytes. -/
def Obligations.DrawSprite : Prop :=
  ∀ (x y n : Nibble) (s : State), decodeWord (0xD#4 ++ x ++ y ++ n) = .ok (.drwVxVyNibble x y n) ∧
    (n.toNat = 0 ∨ s.i.toNat + (n.toNat - 1) ≤ 0xFFF → ∃ t, exec (.drwVxVyNibble x y n) s = .next t ∧
      Drawn .clip s x y n t ∧ t.pc = s.pc + 2 ∧ Frame { regs := [0xF], fb := true } s t) ∧
    (0 < n.toNat → s.i.toNat + (n.toNat - 1) > 0xFFF → ∃ t, exec (.drwVxVyNibble x y n) s = .next t ∧
      ∃ info : Word, info.toNat = max s.i.toNat 0x1000 ∧
        FaultedFrom s .memOutOfRange (some (0xD#4 ++ x ++ y ++ n)) info t)

/-- 43_display R255, R257: DRW under each vertical policy and at every display size of R9 (this hardware's policy is clip, D19, log entry 2,
and its size 64 by 32, D1, log entry 4), and the order of its checks (60_exceptions R283, the spec's own decision D13). Under wrap a
sprite of more rows than the display visits pixels twice (R258): DrawAtEverySize covers it. -/
def Obligations.DrawPolicies : Prop :=
  (∀ (x y n : Nibble) (s : State), exec (.drwVxVyNibble x y n) s = execDrwWith .clip x y n s) ∧
  ∀ (W H : Nat) (p : Config.Params) (x y n : Nibble) (s : State.Sized W H), 8 ≤ W → 1 ≤ H →
    (n.toNat = 0 ∨ s.i.toNat + (n.toNat - 1) ≤ 0xFFF →
      (p.drawVertical = .fault → 0 < n.toNat → (s.getV y).toNat + (n.toNat - 1) < H) →
      (p.drawVertical = .wrap → n.toNat ≤ H) →
      ∃ t, execWith p (.drwVxVyNibble x y n) s = .next t ∧ Drawn p.drawVertical s x y n t ∧ t.pc = s.pc + 2 ∧
        Frame { regs := [0xF], fb := true } s t) ∧
    (p.drawVertical = .fault → 0 < n.toNat → s.i.toNat + (n.toNat - 1) ≤ 0xFFF → (s.getV y).toNat + (n.toNat - 1) ≥ H →
      ∃ t, execWith p (.drwVxVyNibble x y n) s = .next t ∧ ∃ info : Word, info.toNat = (s.getV y).toNat ∧
        FaultedFrom s .drawOutOfRange (some (0xD#4 ++ x ++ y ++ n)) info t) ∧
    (0 < n.toNat → s.i.toNat + (n.toNat - 1) > 0xFFF →
      ∃ t, execWith p (.drwVxVyNibble x y n) s = .next t ∧ ∃ info : Word, info.toNat = max s.i.toNat 0x1000 ∧
        FaultedFrom s .memOutOfRange (some (0xD#4 ++ x ++ y ++ n)) info t)

/-- 43_display R255, R257 to R259: DRW at every display size of R9 and under every vertical policy, as the sequential loop draws it, a
wrapped sprite of more rows than the display included (R258): each pixel is flipped as often as a 1-bit lands on it, and VF = 1
exactly when a 1-bit lands on a pixel that was on, or on one that an earlier 1-bit of the sprite has flipped. -/
def Obligations.DrawAtEverySize : Prop :=
  ∀ (W H : Nat) (p : Config.Params) (x y n : Nibble) (s : State.Sized W H), 8 ≤ W → 1 ≤ H →
    (n.toNat = 0 ∨ s.i.toNat + (n.toNat - 1) ≤ 0xFFF) →
    (p.drawVertical = .fault → 0 < n.toNat → (s.getV y).toNat + (n.toNat - 1) < H) →
    ∃ t, execWith p (.drwVxVyNibble x y n) s = .next t ∧
      (∀ col row : Nat, Framebuffer.pixel t.fb col row =
        (Framebuffer.pixel s.fb col row != decide ((landings p.drawVertical s x y n).count (col, row) % 2 = 1))) ∧
      ((∃ q ∈ landings p.drawVertical s x y n, Framebuffer.pixel s.fb q.1 q.2 = true ∨
          2 ≤ (landings p.drawVertical s x y n).count q) → t.getV 0xF = 1) ∧
      ((¬ ∃ q ∈ landings p.drawVertical s x y n, Framebuffer.pixel s.fb q.1 q.2 = true ∨
          2 ≤ (landings p.drawVertical s x y n).count q) → t.getV 0xF = 0) ∧
      t.pc = s.pc + 2 ∧ Frame { regs := [0xF], fb := true } s t

/-- 43_display R253, R255: drawing a sprite again at the same place, with coordinates not in VF, restores every pixel. That a sprite past
the bottom edge is drawn at all rests on DRAW_VERTICAL = clip (the spec's own decision D19, log entry 2). With x or y = 0xF the flag
moves the second drawing, which need not restore; DrawSprite covers each drawing there. -/
def Obligations.RedrawErases : Prop :=
  ∀ (x y n : Nibble) (s : State), x ≠ 0xF → y ≠ 0xF → (n.toNat = 0 ∨ s.i.toNat + (n.toNat - 1) ≤ 0xFFF) →
    ∃ t u, exec (.drwVxVyNibble x y n) s = .next t ∧ exec (.drwVxVyNibble x y n) t = .next u ∧ u.fb = s.fb

/-- 43_display R250 to R253: get after set and after xor, at every index of a display of any size. That the index names row p / W, column
p % W (10_state R39) is the spec's own choice: row-major (D2), log entry 4. -/
def Obligations.FramebufferModel : Prop :=
  ∀ (W H : Nat) (fb : Framebuffer W H) (p q : Nat) (b : Bool), p < W * H → q < W * H →
    Framebuffer.get fb p = Framebuffer.pixel fb (p % W) (p / W) ∧
    Framebuffer.get (Framebuffer.put fb p b) q = (if q = p then b else Framebuffer.get fb q) ∧
    Framebuffer.get (Framebuffer.xor fb p b) q = (if q = p then (Framebuffer.get fb p != b) else Framebuffer.get fb q)

/-! The ends of a run and the host -/

/-- 70_reset_and_hazards R343: from the good end on, every step is Ok, changes only DT, ST and TONE, and the core stays there. -/
def Obligations.IdleForever : Prop :=
  ∀ (s : State) (n : Nat), Idle s →
    Idle (after n s) ∧ stepResult (after n s) = .ok ∧ ClockOnly s (after n s)

/-- 10_state R52: loadProgram writes the image at 0x200 and nothing else, or refuses an image over 3584 bytes. -/
def Obligations.LoadProgram : Prop :=
  ∀ (bytes : List Byte) (s : State),
    (bytes.length ≤ 3584 → ∃ t, hostCall (.loadProgram bytes) s = (.ok, t) ∧
      (∀ (j : Nat) (h : j < bytes.length), t.readByte (0x200 + j) = bytes[j]) ∧
      (∀ a, a < 0x200 ∨ 0x200 + bytes.length ≤ a → t.readByte a = s.readByte a) ∧
      t = { s with mem := t.mem } ∧ (Memory.wf s.mem = true → Memory.wf t.mem = true)) ∧
    (3584 < bytes.length → hostCall (.loadProgram bytes) s = (.error .imageTooLarge, s))

/-- 10_state R53: setKey writes the one key, or refuses an index outside 0 to 15. -/
def Obligations.SetKey : Prop :=
  ∀ (index : Int) (pressed : Bool) (s : State),
    (0 ≤ index → index < 16 → ∃ t, hostCall (.setKey index pressed) s = (.ok, t) ∧
      (∀ k : Fin 16, t.keys[k] = if (k.val : Int) = index then pressed else s.keys[k]) ∧ t = { s with keys := t.keys }) ∧
    (index < 0 ∨ 16 ≤ index → hostCall (.setKey index pressed) s = (.error .keyIndexError, s))

/-- 10_state R55, R39: getPixel reads row-major (D2), or refuses an index outside the display; on this hardware of 64 by 32 pixels (D1, log
entry 4), and at every display size. -/
def Obligations.GetPixel : Prop :=
  (∀ (s : State) (col row : Nat), col < 64 → row < 32 →
    hostCall (.getPixel (row * 64 + col : Nat)) s = (.flag (Framebuffer.pixel s.fb col row), s)) ∧
  (∀ (s : State) (index : Int), index < 0 ∨ 2048 ≤ index → hostCall (.getPixel index) s = (.error .pixelIndexError, s)) ∧
  (∀ (W H : Nat) (p : Config.Params) (s : State.Sized W H),
    (∀ col row : Nat, col < W → row < H →
      hostCallWith p (.getPixel (row * W + col : Nat)) s = (.flag (Framebuffer.pixel s.fb col row), s)) ∧
    (∀ index : Int, index < 0 ∨ (W * H : Nat) ≤ index →
      hostCallWith p (.getPixel index) s = (.error .pixelIndexError, s)))

/-- 60_exceptions R300: no host operation but reset() and a step changes anything except the keys and memory at 0x200 and above. -/
def Obligations.HostOperationsFrame : Prop :=
  ∀ (c : HostCall) (s : State), c ≠ .reset → c ≠ .step →
    (hostCall c s).2 = { s with keys := (hostCall c s).2.keys, mem := (hostCall c s).2.mem } ∧
    ∀ a, a < 0x200 → (hostCall c s).2.readByte a = s.readByte a
end

