-- ==== Sys2Proof/Laws/Decode.lean ====
section
/-! SUPPORT. Words as numbers: the value of appended fields, the fields of a word, and that every operand is in range. -/

namespace Sys2Proof

/-- Appending puts the left part above the right one. -/
theorem toNat_append_eq {n m : Nat} (a : BitVec n) (b : BitVec m) : (a ++ b).toNat = a.toNat * 2 ^ m + b.toNat := by
  rw [BitVec.toNat_append, ← Nat.shiftLeft_add_eq_or_of_lt b.isLt, Nat.shiftLeft_eq]

theorem toNat_extract_eq {n : Nat} (w : BitVec n) (lo len : Nat) :
    (w.extractLsb' lo len).toNat = w.toNat / 2 ^ lo % 2 ^ len := by
  rw [BitVec.extractLsb'_toNat, Nat.shiftRight_eq_div_pow]

/-- The two bytes of a word, put together again, are the word (20_memory R71). -/
theorem wordOfBytes_split (w : Word) : wordOfBytes (w.extractLsb' 8 8) (w.extractLsb' 0 8) = w := by
  apply BitVec.eq_of_toNat_eq
  have hw := w.isLt
  show (w.extractLsb' 8 8 ++ w.extractLsb' 0 8 : BitVec (8 + 8)).toNat = w.toNat
  rw [toNat_append_eq, toNat_extract_eq, toNat_extract_eq]
  omega

/-- The value of two bytes as a word, high byte first. -/
theorem wordOfBytes_toNat (b0 b1 : Byte) : (wordOfBytes b0 b1).toNat = b0.toNat * 256 + b1.toNat :=
  toNat_append_eq b0 b1

/-- Decoding the bytes of a word is decoding the word. -/
theorem decode_bytesOfWord (w : Word) (rest : List Byte) :
    decode (bytesOfWord w ++ rest) = (decodeWord w).map fun i => (i, rest) := by
  show (decodeWord (wordOfBytes (w.extractLsb' 8 8) (w.extractLsb' 0 8))).map _ = _
  rw [wordOfBytes_split]
  rfl

/-- The fields of a word made of four nibbles (30_encoding R90, formats XYS and XYN of R91). -/
theorem fieldsOf_nibbles (a b c d : Nibble) :
    fieldsOf (a ++ b ++ c ++ d) = { op := a, x := b, y := c, n := d, kk := c ++ d, nnn := b ++ (c ++ d) } := by
  have ha := a.isLt; have hb := b.isLt; have hc := c.isLt; have hd := d.isLt
  have hw : (a ++ b ++ c ++ d : BitVec (4 + 4 + 4 + 4)).toNat =
      a.toNat * 4096 + b.toNat * 256 + c.toNat * 16 + d.toNat := by
    simp only [toNat_append_eq]; omega
  unfold fieldsOf
  congr 1 <;> apply BitVec.eq_of_toNat_eq <;> rw [toNat_extract_eq] <;> simp only [hw, toNat_append_eq] <;> omega

/-- The fields of a word made of a nibble, a nibble and a byte (formats XKK and XS of R91). -/
theorem fieldsOf_byte (a b : Nibble) (k : Byte) :
    fieldsOf (a ++ b ++ k) =
      { op := a, x := b, y := k.extractLsb' 4 4, n := k.extractLsb' 0 4, kk := k, nnn := b ++ k } := by
  have ha := a.isLt; have hb := b.isLt; have hk := k.isLt
  have hw : (a ++ b ++ k : BitVec (4 + 4 + 8)).toNat = a.toNat * 4096 + b.toNat * 256 + k.toNat := by
    simp only [toNat_append_eq]; omega
  unfold fieldsOf
  congr 1 <;> apply BitVec.eq_of_toNat_eq <;> rw [toNat_extract_eq] <;>
    simp only [hw, toNat_append_eq, toNat_extract_eq] <;> omega

/-- The fields of a word made of a nibble and an address (format A of R91). -/
theorem fieldsOf_addr (a : Nibble) (m : Addr) :
    fieldsOf (a ++ m) =
      { op := a, x := m.extractLsb' 8 4, y := m.extractLsb' 4 4, n := m.extractLsb' 0 4, kk := m.extractLsb' 0 8, nnn := m } := by
  have ha := a.isLt; have hm := m.isLt
  have hw : (a ++ m : BitVec (4 + 12)).toNat = a.toNat * 4096 + m.toNat := toNat_append_eq a m
  unfold fieldsOf
  congr 1 <;> apply BitVec.eq_of_toNat_eq <;> rw [toNat_extract_eq] <;>
    simp only [hw, toNat_extract_eq] <;> omega

/-- Every operand value is legal (30_encoding R92, R93): the check refuses no instruction. -/
theorem Instr.wellFormed_all (i : Instr) : i.wellFormed = true := by
  cases i <;> simp only [Instr.wellFormed, Bool.and_eq_true, decide_eq_true_eq] <;>
    first
      | trivial
      | omega

/-- The rows of the opcode table are well formed, and no word matches two of them (R97). -/
theorem opcodeTable_wellFormed : Row.tableWellFormed opcodeTable = true := by decide

end Sys2Proof
end

