-- ==== Sys2Proof/Laws/State.lean ====
section
/-! SUPPORT. One lemma for each field under each update of the state, and for the register and byte reads, so that no proof unfolds
an update. -/

namespace Sys2Proof.Machine

variable {W H : Nat}

variable (s : State.Sized W H)

@[simp] theorem setV_v (x : Nibble) (b : Byte) : (s.setV x b).v = s.v.set x.toNat b x.isLt := rfl
@[simp] theorem setV_i (x : Nibble) (b : Byte) : (s.setV x b).i = s.i := rfl
@[simp] theorem setV_pc (x : Nibble) (b : Byte) : (s.setV x b).pc = s.pc := rfl
@[simp] theorem setV_sp (x : Nibble) (b : Byte) : (s.setV x b).sp = s.sp := rfl
@[simp] theorem setV_stack (x : Nibble) (b : Byte) : (s.setV x b).stack = s.stack := rfl
@[simp] theorem setV_dt (x : Nibble) (b : Byte) : (s.setV x b).dt = s.dt := rfl
@[simp] theorem setV_st (x : Nibble) (b : Byte) : (s.setV x b).st = s.st := rfl
@[simp] theorem setV_keys (x : Nibble) (b : Byte) : (s.setV x b).keys = s.keys := rfl
@[simp] theorem setV_fb (x : Nibble) (b : Byte) : (s.setV x b).fb = s.fb := rfl
@[simp] theorem setV_mem (x : Nibble) (b : Byte) : (s.setV x b).mem = s.mem := rfl
@[simp] theorem setV_fault (x : Nibble) (b : Byte) : (s.setV x b).fault = s.fault := rfl
@[simp] theorem setV_tone (x : Nibble) (b : Byte) : (s.setV x b).tone = s.tone := rfl
@[simp] theorem setV_draws (x : Nibble) (b : Byte) : (s.setV x b).draws = s.draws := rfl
@[simp] theorem setV_readByte (x : Nibble) (b : Byte) (k : Nat) : (s.setV x b).readByte k = s.readByte k := rfl

@[simp] theorem setI_v (a : Word) : (s.setI a).v = s.v := rfl
@[simp] theorem setI_i (a : Word) : (s.setI a).i = a := rfl
@[simp] theorem setI_pc (a : Word) : (s.setI a).pc = s.pc := rfl
@[simp] theorem setI_sp (a : Word) : (s.setI a).sp = s.sp := rfl
@[simp] theorem setI_stack (a : Word) : (s.setI a).stack = s.stack := rfl
@[simp] theorem setI_dt (a : Word) : (s.setI a).dt = s.dt := rfl
@[simp] theorem setI_st (a : Word) : (s.setI a).st = s.st := rfl
@[simp] theorem setI_keys (a : Word) : (s.setI a).keys = s.keys := rfl
@[simp] theorem setI_fb (a : Word) : (s.setI a).fb = s.fb := rfl
@[simp] theorem setI_mem (a : Word) : (s.setI a).mem = s.mem := rfl
@[simp] theorem setI_fault (a : Word) : (s.setI a).fault = s.fault := rfl
@[simp] theorem setI_tone (a : Word) : (s.setI a).tone = s.tone := rfl
@[simp] theorem setI_draws (a : Word) : (s.setI a).draws = s.draws := rfl
@[simp] theorem setI_getV (a : Word) (r : Nibble) : (s.setI a).getV r = s.getV r := rfl
@[simp] theorem setI_readByte (a : Word) (k : Nat) : (s.setI a).readByte k = s.readByte k := rfl

@[simp] theorem setPc_v (a : Word) : (s.setPc a).v = s.v := rfl
@[simp] theorem setPc_i (a : Word) : (s.setPc a).i = s.i := rfl
@[simp] theorem setPc_pc (a : Word) : (s.setPc a).pc = a := rfl
@[simp] theorem setPc_sp (a : Word) : (s.setPc a).sp = s.sp := rfl
@[simp] theorem setPc_stack (a : Word) : (s.setPc a).stack = s.stack := rfl
@[simp] theorem setPc_dt (a : Word) : (s.setPc a).dt = s.dt := rfl
@[simp] theorem setPc_st (a : Word) : (s.setPc a).st = s.st := rfl
@[simp] theorem setPc_keys (a : Word) : (s.setPc a).keys = s.keys := rfl
@[simp] theorem setPc_fb (a : Word) : (s.setPc a).fb = s.fb := rfl
@[simp] theorem setPc_mem (a : Word) : (s.setPc a).mem = s.mem := rfl
@[simp] theorem setPc_fault (a : Word) : (s.setPc a).fault = s.fault := rfl
@[simp] theorem setPc_tone (a : Word) : (s.setPc a).tone = s.tone := rfl
@[simp] theorem setPc_draws (a : Word) : (s.setPc a).draws = s.draws := rfl
@[simp] theorem setPc_getV (a : Word) (r : Nibble) : (s.setPc a).getV r = s.getV r := rfl
@[simp] theorem setPc_readByte (a : Word) (k : Nat) : (s.setPc a).readByte k = s.readByte k := rfl

@[simp] theorem advance_v : (s.advance).v = s.v := rfl
@[simp] theorem advance_i : (s.advance).i = s.i := rfl
@[simp] theorem advance_pc : (s.advance).pc = s.pc + 2 := rfl
@[simp] theorem advance_sp : (s.advance).sp = s.sp := rfl
@[simp] theorem advance_stack : (s.advance).stack = s.stack := rfl
@[simp] theorem advance_dt : (s.advance).dt = s.dt := rfl
@[simp] theorem advance_st : (s.advance).st = s.st := rfl
@[simp] theorem advance_keys : (s.advance).keys = s.keys := rfl
@[simp] theorem advance_fb : (s.advance).fb = s.fb := rfl
@[simp] theorem advance_mem : (s.advance).mem = s.mem := rfl
@[simp] theorem advance_fault : (s.advance).fault = s.fault := rfl
@[simp] theorem advance_tone : (s.advance).tone = s.tone := rfl
@[simp] theorem advance_draws : (s.advance).draws = s.draws := rfl
@[simp] theorem advance_getV (r : Nibble) : (s.advance).getV r = s.getV r := rfl
@[simp] theorem advance_readByte (k : Nat) : (s.advance).readByte k = s.readByte k := rfl

@[simp] theorem skipIf_v (c : Bool) : (s.skipIf c).v = s.v := rfl
@[simp] theorem skipIf_i (c : Bool) : (s.skipIf c).i = s.i := rfl
@[simp] theorem skipIf_pc (c : Bool) : (s.skipIf c).pc = if c then s.pc + 4 else s.pc + 2 := rfl
@[simp] theorem skipIf_sp (c : Bool) : (s.skipIf c).sp = s.sp := rfl
@[simp] theorem skipIf_stack (c : Bool) : (s.skipIf c).stack = s.stack := rfl
@[simp] theorem skipIf_dt (c : Bool) : (s.skipIf c).dt = s.dt := rfl
@[simp] theorem skipIf_st (c : Bool) : (s.skipIf c).st = s.st := rfl
@[simp] theorem skipIf_keys (c : Bool) : (s.skipIf c).keys = s.keys := rfl
@[simp] theorem skipIf_fb (c : Bool) : (s.skipIf c).fb = s.fb := rfl
@[simp] theorem skipIf_mem (c : Bool) : (s.skipIf c).mem = s.mem := rfl
@[simp] theorem skipIf_fault (c : Bool) : (s.skipIf c).fault = s.fault := rfl
@[simp] theorem skipIf_tone (c : Bool) : (s.skipIf c).tone = s.tone := rfl
@[simp] theorem skipIf_draws (c : Bool) : (s.skipIf c).draws = s.draws := rfl
@[simp] theorem skipIf_getV (c : Bool) (r : Nibble) : (s.skipIf c).getV r = s.getV r := rfl
@[simp] theorem skipIf_readByte (c : Bool) (k : Nat) : (s.skipIf c).readByte k = s.readByte k := rfl

@[simp] theorem setDT_v (b : Byte) : (s.setDT b).v = s.v := rfl
@[simp] theorem setDT_i (b : Byte) : (s.setDT b).i = s.i := rfl
@[simp] theorem setDT_pc (b : Byte) : (s.setDT b).pc = s.pc := rfl
@[simp] theorem setDT_sp (b : Byte) : (s.setDT b).sp = s.sp := rfl
@[simp] theorem setDT_stack (b : Byte) : (s.setDT b).stack = s.stack := rfl
@[simp] theorem setDT_dt (b : Byte) : (s.setDT b).dt = b := rfl
@[simp] theorem setDT_st (b : Byte) : (s.setDT b).st = s.st := rfl
@[simp] theorem setDT_keys (b : Byte) : (s.setDT b).keys = s.keys := rfl
@[simp] theorem setDT_fb (b : Byte) : (s.setDT b).fb = s.fb := rfl
@[simp] theorem setDT_mem (b : Byte) : (s.setDT b).mem = s.mem := rfl
@[simp] theorem setDT_fault (b : Byte) : (s.setDT b).fault = s.fault := rfl
@[simp] theorem setDT_tone (b : Byte) : (s.setDT b).tone = s.tone := rfl
@[simp] theorem setDT_draws (b : Byte) : (s.setDT b).draws = s.draws := rfl
@[simp] theorem setDT_getV (b : Byte) (r : Nibble) : (s.setDT b).getV r = s.getV r := rfl
@[simp] theorem setDT_readByte (b : Byte) (k : Nat) : (s.setDT b).readByte k = s.readByte k := rfl

@[simp] theorem setST_v (b : Byte) : (s.setST b).v = s.v := rfl
@[simp] theorem setST_i (b : Byte) : (s.setST b).i = s.i := rfl
@[simp] theorem setST_pc (b : Byte) : (s.setST b).pc = s.pc := rfl
@[simp] theorem setST_sp (b : Byte) : (s.setST b).sp = s.sp := rfl
@[simp] theorem setST_stack (b : Byte) : (s.setST b).stack = s.stack := rfl
@[simp] theorem setST_dt (b : Byte) : (s.setST b).dt = s.dt := rfl
@[simp] theorem setST_st (b : Byte) : (s.setST b).st = b := rfl
@[simp] theorem setST_keys (b : Byte) : (s.setST b).keys = s.keys := rfl
@[simp] theorem setST_fb (b : Byte) : (s.setST b).fb = s.fb := rfl
@[simp] theorem setST_mem (b : Byte) : (s.setST b).mem = s.mem := rfl
@[simp] theorem setST_fault (b : Byte) : (s.setST b).fault = s.fault := rfl
@[simp] theorem setST_tone (b : Byte) : (s.setST b).tone = s.tone := rfl
@[simp] theorem setST_draws (b : Byte) : (s.setST b).draws = s.draws := rfl
@[simp] theorem setST_getV (b : Byte) (r : Nibble) : (s.setST b).getV r = s.getV r := rfl
@[simp] theorem setST_readByte (b : Byte) (k : Nat) : (s.setST b).readByte k = s.readByte k := rfl

@[simp] theorem setFb_v (f : Framebuffer W H) : (s.setFb f).v = s.v := rfl
@[simp] theorem setFb_i (f : Framebuffer W H) : (s.setFb f).i = s.i := rfl
@[simp] theorem setFb_pc (f : Framebuffer W H) : (s.setFb f).pc = s.pc := rfl
@[simp] theorem setFb_sp (f : Framebuffer W H) : (s.setFb f).sp = s.sp := rfl
@[simp] theorem setFb_stack (f : Framebuffer W H) : (s.setFb f).stack = s.stack := rfl
@[simp] theorem setFb_dt (f : Framebuffer W H) : (s.setFb f).dt = s.dt := rfl
@[simp] theorem setFb_st (f : Framebuffer W H) : (s.setFb f).st = s.st := rfl
@[simp] theorem setFb_keys (f : Framebuffer W H) : (s.setFb f).keys = s.keys := rfl
@[simp] theorem setFb_fb (f : Framebuffer W H) : (s.setFb f).fb = f := rfl
@[simp] theorem setFb_mem (f : Framebuffer W H) : (s.setFb f).mem = s.mem := rfl
@[simp] theorem setFb_fault (f : Framebuffer W H) : (s.setFb f).fault = s.fault := rfl
@[simp] theorem setFb_tone (f : Framebuffer W H) : (s.setFb f).tone = s.tone := rfl
@[simp] theorem setFb_draws (f : Framebuffer W H) : (s.setFb f).draws = s.draws := rfl
@[simp] theorem setFb_getV (f : Framebuffer W H) (r : Nibble) : (s.setFb f).getV r = s.getV r := rfl
@[simp] theorem setFb_readByte (f : Framebuffer W H) (k : Nat) : (s.setFb f).readByte k = s.readByte k := rfl

@[simp] theorem setMem_v (m : Memory) : (s.setMem m).v = s.v := rfl
@[simp] theorem setMem_i (m : Memory) : (s.setMem m).i = s.i := rfl
@[simp] theorem setMem_pc (m : Memory) : (s.setMem m).pc = s.pc := rfl
@[simp] theorem setMem_sp (m : Memory) : (s.setMem m).sp = s.sp := rfl
@[simp] theorem setMem_stack (m : Memory) : (s.setMem m).stack = s.stack := rfl
@[simp] theorem setMem_dt (m : Memory) : (s.setMem m).dt = s.dt := rfl
@[simp] theorem setMem_st (m : Memory) : (s.setMem m).st = s.st := rfl
@[simp] theorem setMem_keys (m : Memory) : (s.setMem m).keys = s.keys := rfl
@[simp] theorem setMem_fb (m : Memory) : (s.setMem m).fb = s.fb := rfl
@[simp] theorem setMem_mem (m : Memory) : (s.setMem m).mem = m := rfl
@[simp] theorem setMem_fault (m : Memory) : (s.setMem m).fault = s.fault := rfl
@[simp] theorem setMem_tone (m : Memory) : (s.setMem m).tone = s.tone := rfl
@[simp] theorem setMem_draws (m : Memory) : (s.setMem m).draws = s.draws := rfl
@[simp] theorem setMem_getV (m : Memory) (r : Nibble) : (s.setMem m).getV r = s.getV r := rfl

@[simp] theorem setFirstRegs_v (l : List Byte) : (s.setFirstRegs l).v = Vector.ofFn fun k => l.getD k.val s.v[k] := rfl
@[simp] theorem setFirstRegs_i (l : List Byte) : (s.setFirstRegs l).i = s.i := rfl
@[simp] theorem setFirstRegs_pc (l : List Byte) : (s.setFirstRegs l).pc = s.pc := rfl
@[simp] theorem setFirstRegs_sp (l : List Byte) : (s.setFirstRegs l).sp = s.sp := rfl
@[simp] theorem setFirstRegs_stack (l : List Byte) : (s.setFirstRegs l).stack = s.stack := rfl
@[simp] theorem setFirstRegs_dt (l : List Byte) : (s.setFirstRegs l).dt = s.dt := rfl
@[simp] theorem setFirstRegs_st (l : List Byte) : (s.setFirstRegs l).st = s.st := rfl
@[simp] theorem setFirstRegs_keys (l : List Byte) : (s.setFirstRegs l).keys = s.keys := rfl
@[simp] theorem setFirstRegs_fb (l : List Byte) : (s.setFirstRegs l).fb = s.fb := rfl
@[simp] theorem setFirstRegs_mem (l : List Byte) : (s.setFirstRegs l).mem = s.mem := rfl
@[simp] theorem setFirstRegs_fault (l : List Byte) : (s.setFirstRegs l).fault = s.fault := rfl
@[simp] theorem setFirstRegs_tone (l : List Byte) : (s.setFirstRegs l).tone = s.tone := rfl
@[simp] theorem setFirstRegs_draws (l : List Byte) : (s.setFirstRegs l).draws = s.draws := rfl
@[simp] theorem setFirstRegs_readByte (l : List Byte) (k : Nat) : (s.setFirstRegs l).readByte k = s.readByte k := rfl

@[simp] theorem storeBytes_v (l : List Byte) : (s.storeBytes l).v = s.v := rfl
@[simp] theorem storeBytes_i (l : List Byte) : (s.storeBytes l).i = s.i := rfl
@[simp] theorem storeBytes_pc (l : List Byte) : (s.storeBytes l).pc = s.pc := rfl
@[simp] theorem storeBytes_sp (l : List Byte) : (s.storeBytes l).sp = s.sp := rfl
@[simp] theorem storeBytes_stack (l : List Byte) : (s.storeBytes l).stack = s.stack := rfl
@[simp] theorem storeBytes_dt (l : List Byte) : (s.storeBytes l).dt = s.dt := rfl
@[simp] theorem storeBytes_st (l : List Byte) : (s.storeBytes l).st = s.st := rfl
@[simp] theorem storeBytes_keys (l : List Byte) : (s.storeBytes l).keys = s.keys := rfl
@[simp] theorem storeBytes_fb (l : List Byte) : (s.storeBytes l).fb = s.fb := rfl
@[simp] theorem storeBytes_mem (l : List Byte) : (s.storeBytes l).mem = Memory.writeBytes s.mem s.i.toNat l := rfl
@[simp] theorem storeBytes_fault (l : List Byte) : (s.storeBytes l).fault = s.fault := rfl
@[simp] theorem storeBytes_tone (l : List Byte) : (s.storeBytes l).tone = s.tone := rfl
@[simp] theorem storeBytes_draws (l : List Byte) : (s.storeBytes l).draws = s.draws := rfl
@[simp] theorem storeBytes_getV (l : List Byte) (r : Nibble) : (s.storeBytes l).getV r = s.getV r := rfl

@[simp] theorem drawRandom_v : (s.drawRandom.2).v = s.v := rfl
@[simp] theorem drawRandom_i : (s.drawRandom.2).i = s.i := rfl
@[simp] theorem drawRandom_pc : (s.drawRandom.2).pc = s.pc := rfl
@[simp] theorem drawRandom_sp : (s.drawRandom.2).sp = s.sp := rfl
@[simp] theorem drawRandom_stack : (s.drawRandom.2).stack = s.stack := rfl
@[simp] theorem drawRandom_dt : (s.drawRandom.2).dt = s.dt := rfl
@[simp] theorem drawRandom_st : (s.drawRandom.2).st = s.st := rfl
@[simp] theorem drawRandom_keys : (s.drawRandom.2).keys = s.keys := rfl
@[simp] theorem drawRandom_fb : (s.drawRandom.2).fb = s.fb := rfl
@[simp] theorem drawRandom_mem : (s.drawRandom.2).mem = s.mem := rfl
@[simp] theorem drawRandom_fault : (s.drawRandom.2).fault = s.fault := rfl
@[simp] theorem drawRandom_tone : (s.drawRandom.2).tone = s.tone := rfl
@[simp] theorem drawRandom_draws : (s.drawRandom.2).draws = s.draws + 1 := rfl
@[simp] theorem drawRandom_getV (r : Nibble) : (s.drawRandom.2).getV r = s.getV r := rfl
@[simp] theorem drawRandom_readByte (k : Nat) : (s.drawRandom.2).readByte k = s.readByte k := rfl

@[simp] theorem silence_v : (s.silence).v = s.v := rfl
@[simp] theorem silence_i : (s.silence).i = s.i := rfl
@[simp] theorem silence_pc : (s.silence).pc = s.pc := rfl
@[simp] theorem silence_sp : (s.silence).sp = s.sp := rfl
@[simp] theorem silence_stack : (s.silence).stack = s.stack := rfl
@[simp] theorem silence_dt : (s.silence).dt = s.dt := rfl
@[simp] theorem silence_st : (s.silence).st = s.st := rfl
@[simp] theorem silence_keys : (s.silence).keys = s.keys := rfl
@[simp] theorem silence_fb : (s.silence).fb = s.fb := rfl
@[simp] theorem silence_mem : (s.silence).mem = s.mem := rfl
@[simp] theorem silence_fault : (s.silence).fault = s.fault := rfl
@[simp] theorem silence_tone : (s.silence).tone = false := rfl
@[simp] theorem silence_draws : (s.silence).draws = s.draws := rfl
@[simp] theorem silence_getV (r : Nibble) : (s.silence).getV r = s.getV r := rfl
@[simp] theorem silence_readByte (k : Nat) : (s.silence).readByte k = s.readByte k := rfl

@[simp] theorem takeFault_v (code : FaultCode) (w : Option Word) (info : Word) : (s.takeFault code w info).v = s.v := rfl
@[simp] theorem takeFault_i (code : FaultCode) (w : Option Word) (info : Word) : (s.takeFault code w info).i = s.i := rfl
@[simp] theorem takeFault_pc (code : FaultCode) (w : Option Word) (info : Word) : (s.takeFault code w info).pc = s.pc := rfl
@[simp] theorem takeFault_sp (code : FaultCode) (w : Option Word) (info : Word) : (s.takeFault code w info).sp = s.sp := rfl
@[simp] theorem takeFault_stack (code : FaultCode) (w : Option Word) (info : Word) : (s.takeFault code w info).stack = s.stack := rfl
@[simp] theorem takeFault_dt (code : FaultCode) (w : Option Word) (info : Word) : (s.takeFault code w info).dt = s.dt := rfl
@[simp] theorem takeFault_st (code : FaultCode) (w : Option Word) (info : Word) : (s.takeFault code w info).st = s.st := rfl
@[simp] theorem takeFault_keys (code : FaultCode) (w : Option Word) (info : Word) : (s.takeFault code w info).keys = s.keys := rfl
@[simp] theorem takeFault_fb (code : FaultCode) (w : Option Word) (info : Word) : (s.takeFault code w info).fb = s.fb := rfl
@[simp] theorem takeFault_mem (code : FaultCode) (w : Option Word) (info : Word) : (s.takeFault code w info).mem = s.mem := rfl
@[simp] theorem takeFault_fault (code : FaultCode) (w : Option Word) (info : Word) : (s.takeFault code w info).fault = some ⟨code, s.pc, w, info⟩ := rfl
@[simp] theorem takeFault_tone (code : FaultCode) (w : Option Word) (info : Word) : (s.takeFault code w info).tone = false := rfl
@[simp] theorem takeFault_draws (code : FaultCode) (w : Option Word) (info : Word) : (s.takeFault code w info).draws = s.draws := rfl
@[simp] theorem takeFault_getV (code : FaultCode) (w : Option Word) (info : Word) (r : Nibble) : (s.takeFault code w info).getV r = s.getV r := rfl
@[simp] theorem takeFault_readByte (code : FaultCode) (w : Option Word) (info : Word) (k : Nat) : (s.takeFault code w info).readByte k = s.readByte k := rfl

@[simp] theorem tick_v : (s.tick).v = s.v := rfl
@[simp] theorem tick_i : (s.tick).i = s.i := rfl
@[simp] theorem tick_pc : (s.tick).pc = s.pc := rfl
@[simp] theorem tick_sp : (s.tick).sp = s.sp := rfl
@[simp] theorem tick_stack : (s.tick).stack = s.stack := rfl
@[simp] theorem tick_dt : (s.tick).dt = tickDown s.dt := rfl
@[simp] theorem tick_st : (s.tick).st = tickDown s.st := rfl
@[simp] theorem tick_keys : (s.tick).keys = s.keys := rfl
@[simp] theorem tick_fb : (s.tick).fb = s.fb := rfl
@[simp] theorem tick_mem : (s.tick).mem = s.mem := rfl
@[simp] theorem tick_fault : (s.tick).fault = s.fault := rfl
@[simp] theorem tick_tone : (s.tick).tone = (s.st != 0) := rfl
@[simp] theorem tick_draws : (s.tick).draws = s.draws := rfl
@[simp] theorem tick_getV (r : Nibble) : (s.tick).getV r = s.getV r := rfl
@[simp] theorem tick_readByte (k : Nat) : (s.tick).readByte k = s.readByte k := rfl

@[simp] theorem placeWord_v (w : Word) : (s.placeWord w).v = s.v := rfl
@[simp] theorem placeWord_i (w : Word) : (s.placeWord w).i = s.i := rfl
@[simp] theorem placeWord_pc (w : Word) : (s.placeWord w).pc = BitVec.ofNat 16 s.fetchPlace := rfl
@[simp] theorem placeWord_sp (w : Word) : (s.placeWord w).sp = s.sp := rfl
@[simp] theorem placeWord_stack (w : Word) : (s.placeWord w).stack = s.stack := rfl
@[simp] theorem placeWord_dt (w : Word) : (s.placeWord w).dt = s.dt := rfl
@[simp] theorem placeWord_st (w : Word) : (s.placeWord w).st = s.st := rfl
@[simp] theorem placeWord_keys (w : Word) : (s.placeWord w).keys = s.keys := rfl
@[simp] theorem placeWord_fb (w : Word) : (s.placeWord w).fb = s.fb := rfl
@[simp] theorem placeWord_mem (w : Word) : (s.placeWord w).mem = Memory.writeBytes s.mem s.fetchPlace (bytesOfWord w) := rfl
@[simp] theorem placeWord_fault (w : Word) : (s.placeWord w).fault = none := rfl
@[simp] theorem placeWord_tone (w : Word) : (s.placeWord w).tone = s.tone := rfl
@[simp] theorem placeWord_draws (w : Word) : (s.placeWord w).draws = s.draws := rfl
@[simp] theorem placeWord_getV (w : Word) (r : Nibble) : (s.placeWord w).getV r = s.getV r := rfl

end Sys2Proof.Machine
end

