-- ==== Sys2Proof/Laws/Memory.lean ====
section
/-! SUPPORT. Memory: a read after a write, the canonical form kept by every memory operation, and the reset memory at every
value of GLYPH_TABLE. -/

namespace Sys2Proof.Machine

variable {W H : Nat}

theorem Memory.read_cons (a : Nat) (c : Host.Cell) (m : Memory) :
    Memory.read (c :: m) a = if a = c.1 then c.2 else Memory.read m a := rfl

theorem Memory.read_erase_ne {a b : Nat} (m : Memory) (h : b ≠ a) :
    Memory.read (Memory.erase m a) b = Memory.read m b := by
  induction m with
  | nil => rfl
  | cons c m ih =>
    simp only [Memory.erase, List.filter_cons] at ih ⊢
    by_cases hc : c.1 = a
    · simp [hc, ih, Memory.read_cons, h]
    · simp [hc, ih, Memory.read_cons]

theorem Memory.read_erase_same (m : Memory) (a : Nat) :
    Memory.read (Memory.erase m a) a = Memory.unlisted a := by
  induction m with
  | nil => rfl
  | cons c m ih =>
    simp only [Memory.erase, List.filter_cons] at ih ⊢
    by_cases hc : c.1 = a
    · simp [hc, ih]
    · simp [hc, ih, Memory.read_cons, Ne.symm hc]

theorem Memory.read_insert_ne {a b : Nat} (m : Memory) (v : Byte) (h : b ≠ a) :
    Memory.read (Memory.insert m a v) b = Memory.read m b := by
  induction m with
  | nil => simp [Memory.insert, Memory.read, h]
  | cons c m ih =>
    by_cases hc : a < c.1
    · simp [Memory.insert, hc, Memory.read_cons, h]
    · simp [Memory.insert, hc, Memory.read_cons, ih]

theorem Memory.read_insert_same {a : Nat} (m : Memory) (v : Byte) (h : ∀ c ∈ m, c.1 ≠ a) :
    Memory.read (Memory.insert m a v) a = v := by
  induction m with
  | nil => simp [Memory.insert, Memory.read]
  | cons c m ih =>
    obtain ⟨hc, hm⟩ := List.forall_mem_cons.1 h
    by_cases hlt : a < c.1
    · simp [Memory.insert, hlt, Memory.read_cons]
    · simp [Memory.insert, hlt, Memory.read_cons, Ne.symm hc, ih hm]

theorem Memory.erase_ne {a : Nat} {m : Memory} : ∀ c ∈ Memory.erase m a, c.1 ≠ a := by
  intro c hc
  simpa using (List.mem_filter.1 hc).2

/-- A read after a write: the byte written there, every other byte as before (20_memory R74). -/
theorem Memory.read_write (m : Memory) (a : Nat) (v : Byte) (b : Nat) :
    Memory.read (Memory.write m a v) b = if b = a then v else Memory.read m b := by
  unfold Memory.write
  by_cases hb : b = a
  · subst hb
    split
    · rename_i hv; simp [Memory.read_erase_same, hv]
    · simp [Memory.read_insert_same _ _ Memory.erase_ne]
  · split <;> simp [hb, Memory.read_erase_ne, Memory.read_insert_ne]

/-- A read after writes of successive bytes. -/
theorem Memory.read_writeBytes (bytes : List Byte) (m : Memory) (a b : Nat) :
    Memory.read (Memory.writeBytes m a bytes) b =
      if a ≤ b ∧ b < a + bytes.length then bytes.getD (b - a) 0 else Memory.read m b := by
  induction bytes generalizing m a with
  | nil => simp [Memory.writeBytes]
  | cons v rest ih =>
    rw [Memory.writeBytes, ih, Memory.read_write]
    rcases Nat.lt_trichotomy b a with h | h | h
    · simp [show ¬ a ≤ b by omega, show ¬ a + 1 ≤ b by omega, show b ≠ a by omega]
    · subst h; simp
    · obtain ⟨k, rfl⟩ : ∃ k, b = a + 1 + k := ⟨b - (a + 1), by omega⟩
      have e1 : a + 1 + k - (a + 1) = k := by omega
      have e2 : a + 1 + k - a = k + 1 := by omega
      have e3 : a + 1 + k ≠ a := by omega
      have e4 : a ≤ a + 1 + k := by omega
      have e5 : a + 1 + k < a + (rest.length + 1) ↔ a + 1 + k < a + 1 + rest.length := by omega
      simp [e1, e2, e3, e4, e5]

/-! The canonical form -/

/-- The canonical form as a fact on lists: strictly rising addresses, each inside the space and not as an unlisted byte reads. -/
theorem Memory.wf_iff (m : Memory) :
    Memory.wf m = true ↔
      m.Pairwise (fun c d => c.1 < d.1) ∧ ∀ c ∈ m, c.1 < Config.memSize ∧ c.2 ≠ Memory.unlisted c.1 := by
  have hs : ∀ l : Memory, Memory.sorted l = true ↔ l.Pairwise fun c d => c.1 < d.1 := by
    intro l
    induction l with
    | nil => simp [Memory.sorted]
    | cons c l ih =>
      cases l with
      | nil => simp [Memory.sorted]
      | cons d l =>
        simp only [Memory.sorted, Bool.and_eq_true, decide_eq_true_eq, ih, List.pairwise_cons (a := c)]
        constructor
        · rintro ⟨h1, h2⟩
          refine ⟨?_, h2⟩
          intro e he
          rcases List.mem_cons.1 he with rfl | he
          · exact h1
          · exact Nat.lt_trans h1 ((List.pairwise_cons.1 h2).1 e he)
        · rintro ⟨h1, h2⟩
          exact ⟨h1 d (by simp), h2⟩
  simp [Memory.wf, hs]

theorem Memory.wf_nil : Memory.wf [] = true := rfl

theorem Memory.erase_wf {m : Memory} (a : Nat) (h : Memory.wf m = true) : Memory.wf (Memory.erase m a) = true := by
  rw [Memory.wf_iff] at h ⊢
  exact ⟨h.1.filter _, fun c hc => h.2 c (List.mem_filter.1 hc).1⟩

theorem Memory.mem_insert {m : Memory} {a : Nat} {v : Byte} {c : Host.Cell} :
    c ∈ Memory.insert m a v ↔ c = (a, v) ∨ c ∈ m := by
  induction m with
  | nil => simp [Memory.insert]
  | cons d m ih =>
    by_cases hd : a < d.1
    · simp [Memory.insert, hd]
    · simp [Memory.insert, hd, ih]; tauto

theorem Memory.insert_rising {m : Memory} {a : Nat} {v : Byte} (h : m.Pairwise fun c d => c.1 < d.1)
    (hne : ∀ c ∈ m, c.1 ≠ a) : (Memory.insert m a v).Pairwise fun c d => c.1 < d.1 := by
  induction m with
  | nil => simp [Memory.insert]
  | cons d m ih =>
    obtain ⟨h1, h2⟩ := List.pairwise_cons.1 h
    obtain ⟨hd, hm⟩ := List.forall_mem_cons.1 hne
    by_cases hlt : a < d.1
    · simp only [Memory.insert, hlt, if_true]
      refine List.pairwise_cons.2 ⟨?_, h⟩
      intro e he
      rcases List.mem_cons.1 he with rfl | he
      · exact hlt
      · exact Nat.lt_trans hlt (h1 e he)
    · simp only [Memory.insert, hlt, if_false]
      refine List.pairwise_cons.2 ⟨?_, ih h2 hm⟩
      intro e he
      rcases Memory.mem_insert.1 he with rfl | he
      · show d.1 < a; omega
      · exact h1 e he

/-- A write inside the space keeps the canonical form. -/
theorem Memory.write_wf {m : Memory} {a : Nat} (v : Byte) (ha : a < Config.memSize) (h : Memory.wf m = true) :
    Memory.wf (Memory.write m a v) = true := by
  unfold Memory.write
  have he := Memory.erase_wf a h
  split
  · exact he
  · rename_i hv
    rw [Memory.wf_iff] at he ⊢
    refine ⟨Memory.insert_rising he.1 Memory.erase_ne, ?_⟩
    intro c hc
    rcases Memory.mem_insert.1 hc with rfl | hc
    · exact ⟨ha, hv⟩
    · exact he.2 c hc

/-- Writes inside the space keep the canonical form. -/
theorem Memory.writeBytes_wf {bytes : List Byte} {m : Memory} {a : Nat} (ha : a + bytes.length ≤ Config.memSize)
    (h : Memory.wf m = true) : Memory.wf (Memory.writeBytes m a bytes) = true := by
  induction bytes generalizing m a with
  | nil => exact h
  | cons v rest ih =>
    simp only [List.length_cons] at ha
    exact ih (by omega) (Memory.write_wf v (by omega) h)

/-- Memory at reset has the canonical form. -/
theorem State.reset_mem_wf : Memory.wf State.reset.mem = true := rfl

/-! The memory and the state at reset, at every value of GLYPH_TABLE -/

theorem byteAt_of_lt (table : Config.GlyphTable) (a : Nat) (h : a < Config.glyphSize) :
    table.byteAt a = table[a]'h := by
  simp [Config.GlyphTable.byteAt, List.getD_eq_getElem?_getD, h]

theorem byteAt_of_ge (table : Config.GlyphTable) (a : Nat) (h : Config.glyphSize ≤ a) : table.byteAt a = 0 := by
  simp [Config.GlyphTable.byteAt, List.getD_eq_getElem?_getD, h]

/-- The reset memory reads as the table below 0x050 and as 0 from there on, whatever the table (20_memory R63, R66). -/
theorem Memory.read_resetWith (table : Config.GlyphTable) (a : Nat) :
    Memory.read (Memory.resetWith table) a = table.byteAt a := by
  rw [Memory.resetWith, Memory.read_writeBytes]
  by_cases h : a < Config.glyphSize
  · simp [h, Config.GlyphTable.byteAt]
  · rw [byteAt_of_ge table a (by omega)]
    simp only [Vector.length_toList, Nat.zero_add, h, and_false, if_false]
    exact byteAt_of_ge _ a (by omega)

theorem Memory.resetWith_wf (table : Config.GlyphTable) : Memory.wf (Memory.resetWith table) = true :=
  Memory.writeBytes_wf (by simp [Config.glyphSize, Config.memSize]) Memory.wf_nil

/-- At the default table nothing is listed. -/
theorem Memory.resetWith_default : Memory.resetWith Config.glyphTable = [] := by decide

@[simp] theorem State.Sized.resetWith_mem (table : Config.GlyphTable) :
    (State.Sized.resetWith table : State.Sized W H).mem = Memory.resetWith table := rfl

@[simp] theorem State.Sized.resetWith_readByte (table : Config.GlyphTable) (a : Nat) :
    (State.Sized.resetWith table : State.Sized W H).readByte a = table.byteAt a := Memory.read_resetWith table a

/-- The state after reset at the default table and display size is `State.reset`. -/
theorem State.Sized.resetWith_default : (State.Sized.resetWith Config.glyphTable : State) = State.reset := by
  rw [State.Sized.resetWith, Memory.resetWith_default]; rfl

/-! The same at the level of the state -/

theorem readByte_setMem (s : State.Sized W H) (m : Memory) (a : Nat) : (s.setMem m).readByte a = Memory.read m a := rfl

/-- A read after the stores of an instruction. -/
theorem readByte_storeBytes (s : State.Sized W H) (bytes : List Byte) (a : Nat) :
    (s.storeBytes bytes).readByte a =
      if s.i.toNat ≤ a ∧ a < s.i.toNat + bytes.length then bytes.getD (a - s.i.toNat) 0 else s.readByte a :=
  Memory.read_writeBytes bytes s.mem s.i.toNat a

end Sys2Proof.Machine
end

