-- ==== Sys2Proof/Laws/Ops.lean ====
section
/-! SUPPORT. What each shared operation does, once: registers, stack, keypad, the checks of data accesses, fetch, faults, the
end of a step, and the step itself. -/

namespace Sys2Proof.Machine

variable {W H : Nat}

/-! Registers -/

/-- A register read after a register write. -/
theorem getV_setV (s : State.Sized W H) (x r : Nibble) (b : Byte) :
    (s.setV x b).getV r = if r = x then b else s.getV r := by
  simp only [State.Sized.getV, State.Sized.setV]
  by_cases h : r = x
  · subst h; simp
  · have hne : x.toNat ≠ r.toNat := fun e => h (BitVec.eq_of_toNat_eq e.symm)
    simp [h, Vector.getElem_set_ne _ _ hne]

theorem writeBack_getV (s : State.Sized W H) (x r : Nibble) (b : Byte) :
    (s.writeBack x b).getV r = if r = x then b else s.getV r := getV_setV s x r b

/-- The flag is written last, so it holds where x = 0xF (00_scope R14). -/
theorem writeBackFlag_getV (s : State.Sized W H) (x r : Nibble) (b f : Byte) :
    (s.writeBackFlag x b f).getV r = if r = 0xF then f else if r = x then b else s.getV r := by
  show ((s.setV x b).setV flagReg f).getV r = _
  rw [getV_setV, getV_setV]

/-- The registers after a load of V0, V1, ... -/
theorem getV_setFirstRegs (s : State.Sized W H) (l : List Byte) (r : Nibble) :
    (s.setFirstRegs l).getV r = l.getD r.toNat (s.getV r) := by
  simp [State.Sized.getV, State.Sized.setFirstRegs]

theorem length_firstRegs (s : State.Sized W H) (x : Nibble) : (s.firstRegs x).length = x.toNat + 1 := by
  have := x.isLt
  simp [State.Sized.firstRegs, regCount]; omega

/-- V0 to Vx as a list. -/
theorem getD_firstRegs (s : State.Sized W H) (x r : Nibble) (h : r ≤ x) (d : Byte) :
    (s.firstRegs x).getD r.toNat d = s.getV r := by
  have h1 : r.toNat < x.toNat + 1 := Nat.lt_succ_of_le (BitVec.le_def.1 h)
  have h2 : r.toNat < 16 := r.isLt
  simp [State.Sized.firstRegs, regCount, State.Sized.getV, h1, h2]

theorem length_loadBytes (s : State.Sized W H) (n : Nat) : (s.loadBytes n).length = n := by simp [State.Sized.loadBytes]

/-- The bytes at I, I + 1, ... -/
theorem getD_loadBytes (s : State.Sized W H) (n k : Nat) (d : Byte) :
    (s.loadBytes n).getD k d = if k < n then s.readByte (s.i.toNat + k) else d := by
  by_cases h : k < n
  · simp [State.Sized.loadBytes, h, State.Sized.dataAddr]
  · simp [State.Sized.loadBytes, h]

/-! The call stack -/

/-- Push with room: the entry at SP, every other entry as before, SP one more (10_state R31). -/
theorem push_of_room (s : State.Sized W H) (e : Word) (h : s.sp.val < 16) :
    ∃ t, s.push e = some t ∧ t.sp.val = s.sp.val + 1 ∧ t.stack = s.stack.set s.sp.val e h ∧
      t = { s with sp := t.sp, stack := t.stack } := by
  refine ⟨_, dif_pos h, rfl, rfl, rfl⟩

theorem push_of_full (s : State.Sized W H) (e : Word) (h : s.sp.val = 16) : s.push e = none := by
  simp [State.Sized.push, h]

/-- Pop with an entry: the entry below SP, SP one less, the entries untouched (10_state R32). -/
theorem pop_of_entry (s : State.Sized W H) (h : 0 < s.sp.val) :
    ∃ t, s.pop = some (s.stack[s.sp.val - 1]'(by omega), t) ∧ t.sp.val = s.sp.val - 1 ∧ t = { s with sp := t.sp } := by
  refine ⟨_, dif_pos h, rfl, rfl⟩

theorem pop_of_empty (s : State.Sized W H) (h : s.sp.val = 0) : s.pop = none := by
  simp [State.Sized.pop, h]

/-! The keypad -/

theorem keyPressed_of_lt (s : State.Sized W H) (k : Nat) (h : k < 16) : s.keyPressed k = s.keys[k] := by
  simp [State.Sized.keyPressed, h]

/-- The least pressed key (42_memory_timers R213). -/
theorem leastKey_eq_some (s : State.Sized W H) (k : Nat) :
    s.leastKey = some k ↔ s.keyPressed k = true ∧ ∀ j, j < k → s.keyPressed j = false := by
  unfold State.Sized.leastKey State.Sized.keyPressed
  rw [List.findIdx?_eq_some_iff_getElem]
  constructor
  · rintro ⟨h, h1, h2⟩
    refine ⟨(List.getD_eq_getElem _ _ h).trans h1, fun j hj => ?_⟩
    have hn : s.keys.toList[j]'(Nat.lt_trans hj h) = false := Bool.eq_false_iff.2 (h2 j hj)
    exact (List.getD_eq_getElem _ _ (Nat.lt_trans hj h)).trans hn
  · rintro ⟨h1, h2⟩
    have h : k < s.keys.toList.length := by
      by_contra hk
      rw [List.getD_eq_default _ _ (by omega)] at h1
      cases h1
    refine ⟨h, (List.getD_eq_getElem _ _ h).symm.trans h1, fun j hj => ?_⟩
    exact Bool.eq_false_iff.1 ((List.getD_eq_getElem _ _ (Nat.lt_trans hj h)).symm.trans (h2 j hj))

theorem leastKey_eq_none (s : State.Sized W H) : s.leastKey = none ↔ ∀ k, s.keyPressed k = false := by
  unfold State.Sized.leastKey State.Sized.keyPressed
  rw [List.findIdx?_eq_none_iff]
  constructor
  · intro h k
    by_cases hk : k < s.keys.toList.length
    · rw [List.getD_eq_getElem _ _ hk]
      exact h _ (List.getElem_mem hk)
    · rw [List.getD_eq_default _ _ (by omega)]
  · intro h b hb
    obtain ⟨k, hk, rfl⟩ := List.mem_iff_getElem.1 hb
    have := h k
    rw [List.getD_eq_getElem _ _ hk] at this
    simpa using this

/-! The checks of data accesses -/

/-- The range check passes exactly when all `count` addresses are inside memory (20_memory R68). -/
theorem rangeFault_eq_none (s : State.Sized W H) (count : Nat) :
    s.rangeFault count = none ↔ count = 0 ∨ s.i.toNat + count ≤ 0x1000 := by
  unfold State.Sized.rangeFault State.Sized.dataAddr
  split
  · rename_i h; simp; omega
  · rename_i h; simp; omega

theorem rangeFault_of_out (s : State.Sized W H) (count : Nat) (h0 : 0 < count) (h : s.i.toNat + count > 0x1000) :
    s.rangeFault count = some (.memOutOfRange, s.lowestOutOfRange) :=
  if_pos ⟨h0, by unfold State.Sized.dataAddr; omega⟩

/-- What the range check can answer. -/
theorem rangeFault_cases (s : State.Sized W H) (count : Nat) :
    s.rangeFault count = none ∨ s.rangeFault count = some (.memOutOfRange, s.lowestOutOfRange) := by
  unfold State.Sized.rangeFault
  split
  · exact .inr rfl
  · exact .inl rfl

/-- max(I, 0x1000) (60_exceptions R281). -/
theorem lowestOutOfRange_toNat (s : State.Sized W H) : s.lowestOutOfRange.toNat = max s.i.toNat 0x1000 := by
  unfold State.Sized.lowestOutOfRange
  split
  · rename_i h; simp; omega
  · rename_i h; omega

/-- The checks of a store pass exactly when all `count` addresses are inside memory and above the glyph region (R64, R68). -/
theorem storeFault_eq_none (s : State.Sized W H) (count : Nat) :
    s.storeFault count = none ↔ count = 0 ∨ (80 ≤ s.i.toNat ∧ s.i.toNat + count ≤ 0x1000) := by
  unfold State.Sized.storeFault
  rcases rangeFault_cases s count with h | h
  · have := (rangeFault_eq_none s count).1 h
    rw [h]
    simp only [Config.glyphSize]
    split
    · simp; omega
    · simp; omega
  · rw [h]
    have : ¬ (count = 0 ∨ s.i.toNat + count ≤ 0x1000) := by rw [← rangeFault_eq_none, h]; simp
    simp; omega

theorem storeFault_of_out (s : State.Sized W H) (count : Nat) (h0 : 0 < count) (h : s.i.toNat + count > 0x1000) :
    s.storeFault count = some (.memOutOfRange, s.lowestOutOfRange) := by
  simp [State.Sized.storeFault, rangeFault_of_out s count h0 h]

theorem storeFault_of_glyph (s : State.Sized W H) (count : Nat) (h0 : 0 < count) (h : s.i.toNat < 80)
    (hr : s.i.toNat + count ≤ 0x1000) : s.storeFault count = some (.glyphWrite, s.i) := by
  simp [State.Sized.storeFault, (rangeFault_eq_none s count).2 (.inr hr), h0, h]

/-- What the checks of a store can answer. -/
theorem storeFault_cases (s : State.Sized W H) (count : Nat) :
    s.storeFault count = none ∨ s.storeFault count = some (.memOutOfRange, s.lowestOutOfRange) ∨
      s.storeFault count = some (.glyphWrite, s.i) := by
  unfold State.Sized.storeFault
  rcases rangeFault_cases s count with h | h <;> rw [h]
  · dsimp only; split
    · exact .inr (.inr rfl)
    · exact .inl rfl
  · exact .inr (.inl rfl)

/-! Faults and the step -/

/-- Taking a fault changes FAULT and TONE alone (60_exceptions R284). -/
theorem takeFault_faultedFrom (s : State.Sized W H) (code : FaultCode) (w : Option Word) (info : Word) :
    Safety.FaultedFrom s code w info (s.takeFault code w info) := by
  simp [Safety.FaultedFrom]

/-- An instruction's own fault is a next state. -/
theorem raise_eq (i : Instr) (code : FaultCode) (info : Word) (s : State.Sized W H) :
    raise i code info s = .next (s.takeFault code (some (encode i)) info) := rfl

theorem fetch_of_in (s : State.Sized W H) (h : s.pc.toNat + 1 ≤ 0xFFF) :
    s.fetch = some (s.readByte s.pc.toNat ++ s.readByte (s.pc.toNat + 1)) :=
  if_pos (show s.pc.toNat + 1 < 4096 by omega)

theorem fetch_of_out (s : State.Sized W H) (h : s.pc.toNat + 1 > 0xFFF) : s.fetch = none :=
  if_neg (show ¬ s.pc.toNat + 1 < 4096 by omega)

theorem finish_of_fault (s : State.Sized W H) {r : FaultRecord} (h : s.fault = some r) : s.finish = s := by
  simp [State.Sized.finish, h]

theorem finish_of_none (s : State.Sized W H) (h : s.fault = none) : s.finish = s.tick := by
  simp [State.Sized.finish, h]

@[simp] theorem finish_fault (s : State.Sized W H) : s.finish.fault = s.fault := by
  unfold State.Sized.finish; split <;> rfl

theorem tickDown_toNat (b : Byte) : (tickDown b).toNat = b.toNat - 1 := by
  unfold tickDown
  split
  · rename_i h; subst h; rfl
  · rename_i h
    have : b.toNat ≠ 0 := fun e => h (BitVec.eq_of_toNat_eq e)
    have := b.isLt
    rw [BitVec.toNat_sub]; simp; omega

/-- Everything a cycle can be (30_encoding R110): halted, a fetch fault, a decode fault, or an instruction and the end of the step. -/
theorem cycle_cases (run : Instr → State.Sized W H → Result W H) (s : State.Sized W H) :
    (∃ r, s.fault = some r ∧ cycle run s = .next s.silence) ∨
    (s.fault = none ∧ s.fetch = none ∧ cycle run s = .next (s.takeFault .fetchOutOfRange none s.pc)) ∨
    (∃ w e, s.fault = none ∧ s.fetch = some w ∧ decodeWord w = .error e ∧
      cycle run s = .next (s.takeFault .decode (some w) w)) ∨
    (∃ w i, s.fault = none ∧ s.fetch = some w ∧ decodeWord w = .ok i ∧ cycle run s = finishStep (run i s)) := by
  unfold cycle runWord
  rcases hf : s.fault with _ | r
  · rcases hw : s.fetch with _ | w
    · exact .inr (.inl ⟨rfl, rfl, rfl⟩)
    · rcases hd : decodeWord w with e | i
      · exact .inr (.inr (.inl ⟨w, e, rfl, rfl, hd, by simp [hd]⟩))
      · exact .inr (.inr (.inr ⟨w, i, rfl, rfl, hd, by simp [hd]⟩))
  · exact .inl ⟨r, rfl, rfl⟩

/-- Everything a step can be. -/
theorem step_cases (s : State) :
    (∃ r, s.fault = some r ∧ step s = .next s.silence) ∨
    (s.fault = none ∧ s.fetch = none ∧ step s = .next (s.takeFault .fetchOutOfRange none s.pc)) ∨
    (∃ w e, s.fault = none ∧ s.fetch = some w ∧ decodeWord w = .error e ∧ step s = .next (s.takeFault .decode (some w) w)) ∨
    (∃ w i, s.fault = none ∧ s.fetch = some w ∧ decodeWord w = .ok i ∧ step s = finishStep (exec i s)) := cycle_cases exec s

/-- A cycle of a core that is not halted, on a word that decodes. -/
theorem cycle_of_decode {run : Instr → State.Sized W H → Result W H} {s : State.Sized W H} {w : Word} {i : Instr}
    (hf : s.fault = none) (hw : s.fetch = some w) (hd : decodeWord w = .ok i) : cycle run s = finishStep (run i s) := by
  simp [cycle, runWord, hf, hw, hd]

/-! The host's operations -/

/-- The state after a step that answers a next state. -/
theorem stateAfterBy_of_next {next : State.Sized W H → Result W H} {s t : State.Sized W H} (h : next s = .next t) :
    stateAfterBy next s = t := by
  simp [stateAfterBy, h]

theorem stateAfter_of_next {s t : State} (h : step s = .next t) : stateAfter s = t := stateAfterBy_of_next h

/-- The result of a step, from the state after it (R54, R116). -/
theorem stepResult_eq (s : State) :
    stepResult s = match (stateAfter s).fault with
      | some r => .faulted r
      | none => if s.waiting then .blocked else .ok := rfl

/-- Everything `loadProgram` can do (10_state R52). -/
theorem hostCallBy_loadProgram_cases (next : State.Sized W H → Result W H) (table : Config.GlyphTable) (bytes : List Byte)
    (s : State.Sized W H) :
    (bytes.length ≤ 3584 ∧
      hostCallBy next table (.loadProgram bytes) s = (.ok, s.setMem (Memory.writeBytes s.mem 0x200 bytes))) ∨
    (3584 < bytes.length ∧ hostCallBy next table (.loadProgram bytes) s = (.error .imageTooLarge, s)) := by
  by_cases h : bytes.length ≤ 3584
  · have e : imageWellFormed bytes = true := by simp [imageWellFormed, Config.memSize, Config.progStart]; omega
    exact .inl ⟨h, by simp [hostCallBy, hostLoadProgram, e, replyOf]⟩
  · have e : imageWellFormed bytes = false := by simp [imageWellFormed, Config.memSize, Config.progStart]; omega
    exact .inr ⟨by omega, by simp [hostCallBy, hostLoadProgram, e, replyOf]⟩

/-- Everything `setKey` can do (R53). -/
theorem hostCallBy_setKey_cases (next : State.Sized W H → Result W H) (table : Config.GlyphTable) (index : Int) (pressed : Bool)
    (s : State.Sized W H) :
    (0 ≤ index ∧ index < 16 ∧ hostCallBy next table (.setKey index pressed) s =
      (.ok, { s with keys := s.keys.setIfInBounds index.toNat pressed })) ∨
    ((index < 0 ∨ 16 ≤ index) ∧ hostCallBy next table (.setKey index pressed) s = (.error .keyIndexError, s)) := by
  by_cases h : 0 ≤ index ∧ index < 16
  · exact .inl ⟨h.1, h.2, by simp [hostCallBy, hostSetKey, h, replyOf]⟩
  · exact .inr ⟨by omega, by simp [hostCallBy, hostSetKey, h, replyOf]⟩

/-- `getPixel` changes nothing (R55). -/
theorem hostCallBy_getPixel_state (next : State.Sized W H → Result W H) (table : Config.GlyphTable) (index : Int)
    (s : State.Sized W H) : (hostCallBy next table (.getPixel index) s).2 = s := by
  simp only [hostCallBy]; split <;> rfl

/-! The core at the defaults of its parameters (10_state R44) -/

/-- At the defaults every instruction has the meaning of its arm. -/
theorem execWith_default (i : Instr) (s : State) : execWith Config.params i s = exec i s := by cases i <;> rfl

theorem stepWith_default (s : State) : stepWith Config.params s = step s := by
  rw [stepWith, step, show execWith Config.params = exec from funext fun i => funext fun s => execWith_default i s]

theorem hostCallWith_default (c : HostCall) (s : State) : hostCallWith Config.params c s = hostCall c s := by
  rw [hostCallWith, hostCall, show stepWith Config.params = step from funext stepWith_default]
  rfl

theorem hostRunWith_default (script : List HostCall) (s : State) : hostRunWith Config.params script s = hostRun script s := by
  rw [hostRunWith, hostRun, show hostCallWith Config.params = hostCall from funext fun c => funext fun s => hostCallWith_default c s]

/-- At the defaults a reset is `State.reset`, with the random source where it was. -/
theorem hostReset_eq (s : State) : hostReset s = { State.reset with draws := s.draws } := by
  rw [hostReset, hostResetWith, State.Sized.resetWith_default]

/-- The reset state holds the table it was reset with. -/
theorem glyphsIntact_resetWith (table : Config.GlyphTable) :
    Safety.GlyphsIntact table (State.Sized.resetWith table : State.Sized W H) := by
  intro a h
  rw [State.Sized.resetWith_readByte, byteAt_of_lt table a h]

end Sys2Proof.Machine
end

