-- ==== Sys2Proof/Laws/Display.lean ====
section
/-! SUPPORT. The pixels: one write, one xor, and the drawing loop in closed form (43_display R255 to R259), for every display
size. -/

namespace Sys2Proof.Machine

variable {W H : Nat}

theorem pixel_outside (fb : Framebuffer W H) {col row : Nat} (h : ¬ (row < H ∧ col < W)) :
    Framebuffer.pixel fb col row = false := dif_neg h

/-- A pixel after a write of one pixel. -/
theorem pixel_setPixel (fb : Framebuffer W H) (c r : Nat) (b : Bool) (col row : Nat) :
    Framebuffer.pixel (Framebuffer.setPixel fb c r b) col row =
      if col = c ∧ row = r ∧ r < H ∧ c < W then b else Framebuffer.pixel fb col row := by
  unfold Framebuffer.setPixel
  by_cases h : r < H ∧ c < W
  · rw [dif_pos h]
    unfold Framebuffer.pixel
    by_cases hq : row < H ∧ col < W
    · simp only [dif_pos hq]
      by_cases hr : row = r
      · subst hr
        by_cases hc : col = c
        · subst hc; simp [h.1, h.2]
        · simp [hc, Vector.getElem_set_ne _ _ (Ne.symm hc)]
      · simp [hr, Vector.getElem_set_ne _ _ (Ne.symm hr)]
    · simp only [dif_neg hq]
      by_cases hc : col = c ∧ row = r
      · exact absurd (hc.1 ▸ hc.2 ▸ h) hq
      · rw [if_neg]; rintro ⟨rfl, rfl, -⟩; exact hc ⟨rfl, rfl⟩
  · rw [dif_neg h]
    rw [if_neg]; rintro ⟨-, -, h1, h2⟩; exact h ⟨h1, h2⟩

/-- The column and the row of a flattened index (10_state R39). -/
theorem pixelIndex_col_row {c r : Nat} (hc : c < W) : pixelIndex W c r % W = c ∧ pixelIndex W c r / W = r := by
  unfold pixelIndex
  rw [Nat.mul_comm]
  refine ⟨by rw [Nat.mul_add_mod, Nat.mod_eq_of_lt hc], ?_⟩
  rw [Nat.mul_add_div (by omega), Nat.div_eq_of_lt hc, Nat.add_zero]

/-- Two indices with one column and one row are the same index. -/
theorem index_eq {p q : Nat} (h1 : q % W = p % W) (h2 : q / W = p / W) : q = p := by
  rw [← Nat.div_add_mod q W, ← Nat.div_add_mod p W, h1, h2]

theorem get_pixelIndex (fb : Framebuffer W H) {c r : Nat} (hc : c < W) :
    Framebuffer.get fb (pixelIndex W c r) = Framebuffer.pixel fb c r := by
  rw [Framebuffer.get, (pixelIndex_col_row hc).1, (pixelIndex_col_row hc).2]

/-- A pixel after the xor of one pixel (R253). -/
theorem pixel_xor (fb : Framebuffer W H) {c r : Nat} (hc : c < W) (hr : r < H) (b : Bool) (col row : Nat) :
    Framebuffer.pixel (Framebuffer.xor fb (pixelIndex W c r) b) col row =
      if col = c ∧ row = r then (Framebuffer.pixel fb c r != b) else Framebuffer.pixel fb col row := by
  rw [Framebuffer.xor, Framebuffer.put, pixel_setPixel, get_pixelIndex fb hc, (pixelIndex_col_row hc).1, (pixelIndex_col_row hc).2]
  simp [hc, hr]

theorem pixel_blank (col row : Nat) : Framebuffer.pixel (Framebuffer.blank : Framebuffer W H) col row = false := by
  unfold Framebuffer.pixel Framebuffer.blank
  split <;> simp

/-! The drawing loop as visits of pixels, one for each 1-bit that is drawn, in the loop's order -/

/-- One 1-bit on the pixel q: the pixel is flipped, and it is a hit if it was on. -/
def visit (k : Canvas W H) (q : Nat × Nat) : Canvas W H where
  fb := Framebuffer.xor k.fb (pixelIndex W q.1 q.2) true
  hit := k.hit || Framebuffer.get k.fb (pixelIndex W q.1 q.2)

/-- The pixels visited by one sprite row that is drawn on `row`. -/
def rowVisits (W xs row : Nat) (b : Byte) : List (Nat × Nat) :=
  ((List.range 8).filter (spriteBit b)).map fun c => (spriteCol W xs c, row)

/-- The pixels visited by a sprite whose rows are `bytes` and whose top row is `top`. -/
def spriteVisits (W H : Nat) (policy : Config.VerticalPolicy) (xs top : Nat) (bytes : List Byte) : List (Nat × Nat) :=
  (List.range bytes.length).flatMap fun j =>
    match spriteRow H policy (top + j) with
    | none => []
    | some r => rowVisits W xs r (bytes.getD j 0)

theorem drawRow_eq (xs row : Nat) (b : Byte) (k : Canvas W H) :
    drawRow xs row b k = (rowVisits W xs row b).foldl visit k := by
  unfold drawRow rowVisits
  generalize List.range 8 = cs
  induction cs generalizing k with
  | nil => rfl
  | cons c cs ih =>
    rw [List.foldl_cons, ih]
    by_cases hb : spriteBit b c = true
    · simp [drawBit, visit, hb]
    · simp [drawBit, hb]

theorem spriteVisits_cons (policy : Config.VerticalPolicy) (xs top : Nat) (b : Byte) (rest : List Byte) :
    spriteVisits W H policy xs top (b :: rest) =
      (match spriteRow H policy top with
        | none => []
        | some r => rowVisits W xs r b) ++ spriteVisits W H policy xs (top + 1) rest := by
  simp only [spriteVisits, List.length_cons, List.range_succ_eq_map, List.flatMap_cons, List.flatMap_map, Nat.add_zero]
  congr 1
  congr 1
  funext j
  rw [show top + j.succ = top + 1 + j by omega]
  rfl

/-- The drawing loop is the fold of its visits. -/
theorem drawRows_eq (policy : Config.VerticalPolicy) (xs top : Nat) (bytes : List Byte) (k : Canvas W H) :
    drawRows policy xs top bytes k = (spriteVisits W H policy xs top bytes).foldl visit k := by
  induction bytes generalizing top k with
  | nil => rfl
  | cons b rest ih =>
    rw [spriteVisits_cons, List.foldl_append]
    rcases hr : spriteRow H policy top with _ | r
    · simp only [drawRows, hr, List.foldl_nil, ih]
    · simp only [drawRows, hr, ih, drawRow_eq]

theorem pixel_visit (k : Canvas W H) {q : Nat × Nat} (hq : q.1 < W ∧ q.2 < H) (p : Nat × Nat) :
    Framebuffer.pixel (visit k q).fb p.1 p.2 = (Framebuffer.pixel k.fb p.1 p.2 != decide (p = q)) := by
  rw [visit, pixel_xor k.fb hq.1 hq.2]
  by_cases h : p = q
  · subst h; simp
  · rw [if_neg (fun e => h (Prod.ext e.1 e.2))]; simp [h]

theorem hit_visit (k : Canvas W H) {q : Nat × Nat} (hq : q.1 < W ∧ q.2 < H) :
    (visit k q).hit = (k.hit || Framebuffer.pixel k.fb q.1 q.2) := by
  rw [visit, get_pixelIndex k.fb hq.1]

/-- Visits in closed form: a pixel is flipped as often as it is visited, and there is a hit exactly when a visited pixel was on or is
visited twice (R255, R259). -/
theorem foldl_visit (L : List (Nat × Nat)) (hL : ∀ q ∈ L, q.1 < W ∧ q.2 < H) (k : Canvas W H) :
    (∀ p : Nat × Nat, Framebuffer.pixel (L.foldl visit k).fb p.1 p.2 =
      (Framebuffer.pixel k.fb p.1 p.2 != decide (L.count p % 2 = 1))) ∧
    ((L.foldl visit k).hit = true ↔
      k.hit = true ∨ ∃ q ∈ L, Framebuffer.pixel k.fb q.1 q.2 = true ∨ 2 ≤ L.count q) := by
  induction L generalizing k with
  | nil => simp
  | cons q L ih =>
    obtain ⟨hq, hL'⟩ := List.forall_mem_cons.1 hL
    obtain ⟨i1, i2⟩ := ih hL' (visit k q)
    simp only [List.foldl_cons]
    constructor
    · intro p
      rw [i1, pixel_visit k hq, List.count_cons]
      by_cases h : p = q
      · subst h
        rcases Nat.mod_two_eq_zero_or_one (L.count p) with e | e <;> simp [e, Nat.add_mod]
      · simp [h, Ne.symm h]
    · rw [i2, hit_visit k hq]
      simp only [pixel_visit k hq, Bool.or_eq_true, List.mem_cons, List.count_cons]
      constructor
      · rintro ((h | h) | ⟨p, hp, h⟩)
        · exact .inl h
        · exact .inr ⟨q, .inl rfl, .inl h⟩
        · refine .inr ⟨p, .inr hp, ?_⟩
          have hc := List.count_pos_iff.2 hp
          by_cases e : p = q
          · subst e; right; simp; omega
          · rcases h with h | h
            · left; simpa [e] using h
            · right; omega
      · rintro (h | ⟨p, hp, h⟩)
        · exact .inl (.inl h)
        · by_cases e : p = q
          · subst e
            by_cases hlit : Framebuffer.pixel k.fb p.1 p.2 = true
            · exact .inl (.inr hlit)
            · rcases h with h | h
              · exact absurd h hlit
              · have hm : p ∈ L := by simpa using h
                exact .inr ⟨p, hm, .inl (by simp [hlit])⟩
          · have hm : p ∈ L := by rcases hp with rfl | hp; exact absurd rfl e; exact hp
            refine .inr ⟨p, hm, ?_⟩
            rcases h with h | h
            · left; simpa [e] using h
            · right; simpa [Ne.symm e] using h

theorem spriteRow_lt {policy : Config.VerticalPolicy} {row r : Nat} (hH : 0 < H) (h : spriteRow H policy row = some r) : r < H := by
  unfold spriteRow at h
  split at h
  · cases h; assumption
  · cases policy <;> simp at h
    subst h; exact Nat.mod_lt _ hH

/-- Every visited pixel is on the display. -/
theorem spriteVisits_lt (policy : Config.VerticalPolicy) (xs top : Nat) (bytes : List Byte) (hW : 0 < W) (hH : 0 < H) :
    ∀ q ∈ spriteVisits W H policy xs top bytes, q.1 < W ∧ q.2 < H := by
  intro q hq
  obtain ⟨j, -, hj⟩ := List.mem_flatMap.1 hq
  rcases hr : spriteRow H policy (top + j) with _ | r
  · simp [hr] at hj
  · simp only [hr, rowVisits, List.mem_map] at hj
    obtain ⟨c, -, rfl⟩ := hj
    exact ⟨Nat.mod_lt _ hW, spriteRow_lt hH hr⟩

/-! No pixel is visited twice (R258) -/

/-- The columns of a row's 8 bits are distinct. -/
theorem spriteCol_inj {xs c d : Nat} (hW : 8 ≤ W) (hc : c < 8) (hd : d < 8) (h : spriteCol W xs c = spriteCol W xs d) : c = d := by
  have e : c % W = d % W := Nat.ModEq.add_left_cancel' xs h
  rwa [Nat.mod_eq_of_lt (by omega), Nat.mod_eq_of_lt (by omega)] at e

/-- A sprite's rows are drawn on different rows, under wrap where they are not more than the display's. -/
theorem spriteRow_inj {policy : Config.VerticalPolicy} {top i j n r : Nat} (hn : policy = .wrap → n ≤ H) (hi : i < n) (hj : j < n)
    (h0 : spriteRow H policy (top + i) = some r) (h : spriteRow H policy (top + j) = some r) : i = j := by
  unfold spriteRow at h h0
  cases policy
  · split at h <;> split at h0 <;> simp at h h0; omega
  · have hn := hn rfl
    have e : ∀ a, (if a < H then some a else some (a % H)) = some (a % H) := by
      intro a; split
      · rw [Nat.mod_eq_of_lt ‹_›]
      · rfl
    simp only [e, Option.some.injEq] at h h0
    have e2 : i % H = j % H := Nat.ModEq.add_left_cancel' top (h0.trans h.symm)
    rwa [Nat.mod_eq_of_lt (by omega), Nat.mod_eq_of_lt (by omega)] at e2
  · split at h <;> split at h0 <;> simp at h h0; omega

theorem rowVisits_nodup (xs row : Nat) (b : Byte) (hW : 8 ≤ W) : (rowVisits W xs row b).Nodup := by
  refine List.Nodup.map_on ?_ (List.nodup_range.filter _)
  intro c hc d hd h
  simp only [List.mem_filter, List.mem_range] at hc hd
  exact spriteCol_inj hW hc.1 hd.1 (Prod.ext_iff.1 h).1

/-- No pixel is visited twice by one sprite on a display at least 8 wide, under wrap where its rows are not more than the display's. -/
theorem spriteVisits_nodup (policy : Config.VerticalPolicy) (xs top : Nat) (bytes : List Byte) (hW : 8 ≤ W)
    (hn : policy = .wrap → bytes.length ≤ H) : (spriteVisits W H policy xs top bytes).Nodup := by
  rw [spriteVisits, List.nodup_flatMap]
  constructor
  · intro j _
    split
    · simp
    · exact rowVisits_nodup _ _ _ hW
  · refine List.Pairwise.imp_of_mem ?_ (List.nodup_range (n := bytes.length))
    intro i j hi hj hij
    rw [Function.onFun, List.disjoint_left]
    intro q h1 h2
    rcases hr : spriteRow H policy (top + i) with _ | r <;> simp only [hr] at h1
    · simp at h1
    rcases hs : spriteRow H policy (top + j) with _ | r' <;> simp only [hs] at h2
    · simp at h2
    simp only [rowVisits, List.mem_map] at h1 h2
    obtain ⟨c, -, rfl⟩ := h1
    obtain ⟨d, -, h⟩ := h2
    obtain rfl : r' = r := (Prod.ext_iff.1 h).2
    exact hij (spriteRow_inj hn (List.mem_range.1 hi) (List.mem_range.1 hj) hr hs)

/-- The drawing loop in closed form where no pixel is visited twice: each pixel is flipped exactly where a 1-bit of the sprite lands,
and there is a hit exactly when such a pixel was on (R255, R259). -/
theorem drawRows_spec (policy : Config.VerticalPolicy) (xs top : Nat) (bytes : List Byte) (hW : 8 ≤ W) (hH : 0 < H)
    (hn : policy = .wrap → bytes.length ≤ H) (k : Canvas W H) :
    (∀ p : Nat × Nat, Framebuffer.pixel (drawRows policy xs top bytes k).fb p.1 p.2 = true ↔
      ¬ (Framebuffer.pixel k.fb p.1 p.2 = true ↔ p ∈ spriteVisits W H policy xs top bytes)) ∧
    ((drawRows policy xs top bytes k).hit = true ↔
      k.hit = true ∨ ∃ p ∈ spriteVisits W H policy xs top bytes, Framebuffer.pixel k.fb p.1 p.2 = true) := by
  obtain ⟨f1, f2⟩ := foldl_visit _ (spriteVisits_lt policy xs top bytes (by omega) hH) k
  have hnd := spriteVisits_nodup policy xs top bytes hW hn
  rw [drawRows_eq]
  constructor
  · intro p
    rw [f1]
    by_cases h : p ∈ spriteVisits W H policy xs top bytes
    · simp [List.count_eq_one_of_mem hnd h, h]
    · simp [List.count_eq_zero_of_not_mem h, h]
  · rw [f2]
    constructor
    · rintro (h | ⟨q, hq, h | h⟩)
      · exact .inl h
      · exact .inr ⟨q, hq, h⟩
      · rw [List.count_eq_one_of_mem hnd hq] at h; omega
    · rintro (h | ⟨q, hq, h⟩)
      · exact .inl h
      · exact .inr ⟨q, hq, .inl h⟩

/-! The loop and the terms of Safety -/

/-- The pixels the loop visits are where the 1-bits land. -/
theorem landings_eq (policy : Config.VerticalPolicy) (s : State.Sized W H) (x y n : Nibble) :
    Safety.landings policy s x y n =
      spriteVisits W H policy (s.getV x).toNat (s.getV y).toNat (s.loadBytes n.toNat) := by
  rw [Safety.landings, spriteVisits, length_loadBytes, List.flatMap_def, List.flatMap_def]
  congr 1
  refine List.map_congr_left fun r hr => ?_
  rw [getD_loadBytes, if_pos (List.mem_range.1 hr)]
  by_cases hlt : (s.getV y).toNat + r < H
  · simp only [hlt, true_or, if_true, spriteRow, rowVisits, Nat.mod_eq_of_lt hlt]; rfl
  · cases policy <;> simp only [hlt, spriteRow, rowVisits, false_or, if_false, if_true, reduceCtorEq]; rfl

/-- A pixel of the display is landed on exactly where a 1-bit covers it. -/
theorem mem_landings (policy : Config.VerticalPolicy) (s : State.Sized W H) (x y n : Nibble) {col row : Nat} (hrow : row < H) :
    (col, row) ∈ Safety.landings policy s x y n ↔ Safety.Covers policy s x y n col row := by
  have hmod : ∀ a, a < H → a % H = a := fun a => Nat.mod_eq_of_lt
  simp only [Safety.landings, List.mem_flatMap, List.mem_range, Safety.Covers]
  constructor
  · rintro ⟨r, hr, h⟩
    split at h
    · rename_i hc
      simp only [List.mem_map, List.mem_filter, List.mem_range, Prod.mk.injEq] at h
      obtain ⟨c, ⟨hc8, hb⟩, h1, h2⟩ := h
      refine ⟨r, c, hr, hc8, hb, h1, ?_⟩
      split
      · exact h2
      · rw [hmod _ (hc.resolve_right ‹_›)] at h2; exact h2
    · simp at h
  · rintro ⟨r, c, hr, hc8, hb, h1, h2⟩
    refine ⟨r, hr, ?_⟩
    split at h2
    · rw [if_pos (.inr ‹_›)]
      exact List.mem_map.2 ⟨c, List.mem_filter.2 ⟨List.mem_range.2 hc8, hb⟩, Prod.ext h1 h2⟩
    · have hlt : (s.getV y).toNat + r < H := by omega
      rw [if_pos (.inl hlt)]
      exact List.mem_map.2 ⟨c, List.mem_filter.2 ⟨List.mem_range.2 hc8, hb⟩, Prod.ext h1 ((hmod _ hlt).trans h2)⟩

end Sys2Proof.Machine
end

