-- ==== Sys2Proof/Laws/PerInstr.lean ====
section
/-! SUPPORT. The family `TableRow`: each instruction's word is taken by the row of the opcode table with its mnemonic (30_encoding
R97), whatever its operands. One lemma for each constructor. -/

namespace Sys2Proof.Laws.TableRow

/-- The instruction's word matches the row of its own mnemonic. -/
def Statement (i : Instr) : Prop := ∃ r ∈ opcodeTable, r.mnemonic = mnemonic i ∧ r.takes (encode i) = true

theorem cls : Statement (.cls) :=
  ⟨⟨"CLS", 0xFFFF, 0x00E0⟩, by simp [opcodeTable], rfl, rfl⟩

theorem ret : Statement (.ret) :=
  ⟨⟨"RET", 0xFFFF, 0x00EE⟩, by simp [opcodeTable], rfl, rfl⟩

theorem jpAddr (nnn : Addr) : Statement (.jpAddr nnn) :=
  ⟨⟨"JP_addr", 0xF000, 0x1000⟩, by simp [opcodeTable], rfl, by revert nnn; decide +kernel⟩

theorem callAddr (nnn : Addr) : Statement (.callAddr nnn) :=
  ⟨⟨"CALL_addr", 0xF000, 0x2000⟩, by simp [opcodeTable], rfl, by revert nnn; decide +kernel⟩

theorem seVxByte (x : Nibble) (kk : Byte) : Statement (.seVxByte x kk) :=
  ⟨⟨"SE_Vx__byte", 0xF000, 0x3000⟩, by simp [opcodeTable], rfl, by revert x kk; decide +kernel⟩

theorem sneVxByte (x : Nibble) (kk : Byte) : Statement (.sneVxByte x kk) :=
  ⟨⟨"SNE_Vx__byte", 0xF000, 0x4000⟩, by simp [opcodeTable], rfl, by revert x kk; decide +kernel⟩

theorem seVxVy (x : Nibble) (y : Nibble) : Statement (.seVxVy x y) :=
  ⟨⟨"SE_Vx__Vy", 0xF00F, 0x5000⟩, by simp [opcodeTable], rfl, by revert x y; decide +kernel⟩

theorem ldVxByte (x : Nibble) (kk : Byte) : Statement (.ldVxByte x kk) :=
  ⟨⟨"LD_Vx__byte", 0xF000, 0x6000⟩, by simp [opcodeTable], rfl, by revert x kk; decide +kernel⟩

theorem addVxByte (x : Nibble) (kk : Byte) : Statement (.addVxByte x kk) :=
  ⟨⟨"ADD_Vx__byte", 0xF000, 0x7000⟩, by simp [opcodeTable], rfl, by revert x kk; decide +kernel⟩

theorem ldVxVy (x : Nibble) (y : Nibble) : Statement (.ldVxVy x y) :=
  ⟨⟨"LD_Vx__Vy", 0xF00F, 0x8000⟩, by simp [opcodeTable], rfl, by revert x y; decide +kernel⟩

theorem orVxVy (x : Nibble) (y : Nibble) : Statement (.orVxVy x y) :=
  ⟨⟨"OR_Vx__Vy", 0xF00F, 0x8001⟩, by simp [opcodeTable], rfl, by revert x y; decide +kernel⟩

theorem andVxVy (x : Nibble) (y : Nibble) : Statement (.andVxVy x y) :=
  ⟨⟨"AND_Vx__Vy", 0xF00F, 0x8002⟩, by simp [opcodeTable], rfl, by revert x y; decide +kernel⟩

theorem xorVxVy (x : Nibble) (y : Nibble) : Statement (.xorVxVy x y) :=
  ⟨⟨"XOR_Vx__Vy", 0xF00F, 0x8003⟩, by simp [opcodeTable], rfl, by revert x y; decide +kernel⟩

theorem addVxVy (x : Nibble) (y : Nibble) : Statement (.addVxVy x y) :=
  ⟨⟨"ADD_Vx__Vy", 0xF00F, 0x8004⟩, by simp [opcodeTable], rfl, by revert x y; decide +kernel⟩

theorem subVxVy (x : Nibble) (y : Nibble) : Statement (.subVxVy x y) :=
  ⟨⟨"SUB_Vx__Vy", 0xF00F, 0x8005⟩, by simp [opcodeTable], rfl, by revert x y; decide +kernel⟩

theorem shrVx (x : Nibble) (y : Nibble) : Statement (.shrVx x y) :=
  ⟨⟨"SHR_Vx____Vy", 0xF00F, 0x8006⟩, by simp [opcodeTable], rfl, by revert x y; decide +kernel⟩

theorem subnVxVy (x : Nibble) (y : Nibble) : Statement (.subnVxVy x y) :=
  ⟨⟨"SUBN_Vx__Vy", 0xF00F, 0x8007⟩, by simp [opcodeTable], rfl, by revert x y; decide +kernel⟩

theorem shlVx (x : Nibble) (y : Nibble) : Statement (.shlVx x y) :=
  ⟨⟨"SHL_Vx____Vy", 0xF00F, 0x800E⟩, by simp [opcodeTable], rfl, by revert x y; decide +kernel⟩

theorem sneVxVy (x : Nibble) (y : Nibble) : Statement (.sneVxVy x y) :=
  ⟨⟨"SNE_Vx__Vy", 0xF00F, 0x9000⟩, by simp [opcodeTable], rfl, by revert x y; decide +kernel⟩

theorem ldIAddr (nnn : Addr) : Statement (.ldIAddr nnn) :=
  ⟨⟨"LD_I__addr", 0xF000, 0xA000⟩, by simp [opcodeTable], rfl, by revert nnn; decide +kernel⟩

theorem jpV0Addr (nnn : Addr) : Statement (.jpV0Addr nnn) :=
  ⟨⟨"JP_V0__addr", 0xF000, 0xB000⟩, by simp [opcodeTable], rfl, by revert nnn; decide +kernel⟩

theorem rndVxByte (x : Nibble) (kk : Byte) : Statement (.rndVxByte x kk) :=
  ⟨⟨"RND_Vx__byte", 0xF000, 0xC000⟩, by simp [opcodeTable], rfl, by revert x kk; decide +kernel⟩

theorem drwVxVyNibble (x : Nibble) (y : Nibble) (n : Nibble) : Statement (.drwVxVyNibble x y n) :=
  ⟨⟨"DRW_Vx__Vy__nibble", 0xF000, 0xD000⟩, by simp [opcodeTable], rfl, by revert x y n; decide +kernel⟩

theorem skpVx (x : Nibble) : Statement (.skpVx x) :=
  ⟨⟨"SKP_Vx", 0xF0FF, 0xE09E⟩, by simp [opcodeTable], rfl, by revert x; decide +kernel⟩

theorem sknpVx (x : Nibble) : Statement (.sknpVx x) :=
  ⟨⟨"SKNP_Vx", 0xF0FF, 0xE0A1⟩, by simp [opcodeTable], rfl, by revert x; decide +kernel⟩

theorem ldVxDT (x : Nibble) : Statement (.ldVxDT x) :=
  ⟨⟨"LD_Vx__DT", 0xF0FF, 0xF007⟩, by simp [opcodeTable], rfl, by revert x; decide +kernel⟩

theorem ldVxK (x : Nibble) : Statement (.ldVxK x) :=
  ⟨⟨"LD_Vx__K", 0xF0FF, 0xF00A⟩, by simp [opcodeTable], rfl, by revert x; decide +kernel⟩

theorem ldDTVx (x : Nibble) : Statement (.ldDTVx x) :=
  ⟨⟨"LD_DT__Vx", 0xF0FF, 0xF015⟩, by simp [opcodeTable], rfl, by revert x; decide +kernel⟩

theorem ldSTVx (x : Nibble) : Statement (.ldSTVx x) :=
  ⟨⟨"LD_ST__Vx", 0xF0FF, 0xF018⟩, by simp [opcodeTable], rfl, by revert x; decide +kernel⟩

theorem addIVx (x : Nibble) : Statement (.addIVx x) :=
  ⟨⟨"ADD_I__Vx", 0xF0FF, 0xF01E⟩, by simp [opcodeTable], rfl, by revert x; decide +kernel⟩

theorem ldFVx (x : Nibble) : Statement (.ldFVx x) :=
  ⟨⟨"LD_F__Vx", 0xF0FF, 0xF029⟩, by simp [opcodeTable], rfl, by revert x; decide +kernel⟩

theorem ldBVx (x : Nibble) : Statement (.ldBVx x) :=
  ⟨⟨"LD_B__Vx", 0xF0FF, 0xF033⟩, by simp [opcodeTable], rfl, by revert x; decide +kernel⟩

theorem ldMemVx (x : Nibble) : Statement (.ldMemVx x) :=
  ⟨⟨"LD__I___Vx", 0xF0FF, 0xF055⟩, by simp [opcodeTable], rfl, by revert x; decide +kernel⟩

theorem ldVxMem (x : Nibble) : Statement (.ldVxMem x) :=
  ⟨⟨"LD_Vx___I", 0xF0FF, 0xF065⟩, by simp [opcodeTable], rfl, by revert x; decide +kernel⟩

end Sys2Proof.Laws.TableRow
end

