-- ==== Sys2Proof/Tests/Slice0.lean ====
section
/-! SUPPORT. Small tests of the model, each expected result from spec/95_test_vectors.md or from the rule named: the checks on
syntax, the decoder, one or two steps for each instruction, faults, timers and host operations; and for each statement with
hypotheses a witness that meets them. -/

namespace Sys2Proof.Tests

open Sys2Proof Sys2Proof.Machine Sys2Proof.Safety

/-! The checks on syntax -/

/-- R90: kk is not y then n. -/
theorem test_fields_refused_kk : Fields.wellFormed ⟨0x8, 0x1, 0x2, 0x4, 0x25, 0x124⟩ = false := by decide
/-- R90: nnn is not x then kk. -/
theorem test_fields_refused_nnn : Fields.wellFormed ⟨0x8, 0x1, 0x2, 0x4, 0x24, 0x224⟩ = false := by decide
theorem test_fields_accepted : Fields.wellFormed ⟨0x8, 0x1, 0x2, 0x4, 0x24, 0x124⟩ = true := by decide
/-- A row that asks for a bit its mask leaves out. -/
theorem test_row_refused : Row.wellFormed ⟨"bad", 0xF000, 0x1001⟩ = false := by decide
/-- R98: CLS keyed on its low byte and JP in family 0 would take one word. -/
theorem test_rows_refused : Row.disjoint ⟨"low byte", 0xF0FF, 0x00E0⟩ ⟨"whole word", 0xFFFF, 0x00E0⟩ = false := by decide
theorem test_table_refused :
    Row.tableWellFormed [⟨"low byte", 0xF0FF, 0x00E0⟩, ⟨"whole word", 0xFFFF, 0x00E0⟩] = false := by decide
/-- R52: 3584 bytes fit, 3585 do not. -/
theorem test_image_accepted : imageWellFormed (List.replicate 3584 0) = true := by
  unfold imageWellFormed; rw [List.length_replicate]; decide
theorem test_image_refused : imageWellFormed (List.replicate 3585 0) = false := by
  unfold imageWellFormed; rw [List.length_replicate]; decide
/-- R92: no instruction is ill formed; the largest operands are accepted. -/
theorem test_instr_accepted : Instr.wellFormed (.drwVxVyNibble 0xF 0xF 0xF) = true := by decide
theorem test_memory_refused_order : Memory.wf [(0x300, 1), (0x200, 1)] = false := by decide
theorem test_memory_refused_default : Memory.wf [(0x300, 0)] = false := by decide
theorem test_memory_refused_outside : Memory.wf [(0x1000, 1)] = false := by decide

/-- A glyph table with every pixel off: a value of GLYPH_TABLE other than the default. -/
def blankGlyphs : Config.GlyphTable := Vector.replicate 80 0

theorem test_glyph_table_default : glyphTableWellFormed Config.glyphTable = true := by decide
/-- 20_memory R63: the source's glyph of digit 0 is missing. -/
theorem test_glyph_table_refused_zero : glyphTableWellFormed blankGlyphs = false := by decide
/-- 20_memory R62: a row 8 pixels wide. -/
theorem test_glyph_table_refused_width : glyphTableWellFormed (Config.glyphTable.set 5 0xFF) = false := by decide
/-- R9: a display under 8 pixels wide, and one of no rows. -/
theorem test_display_refused : displayWellFormed 7 32 = false ∧ displayWellFormed 8 0 = false ∧ displayWellFormed 64 32 = true := by decide
/-- 20_memory R63, R66: reset under another table. -/
theorem test_reset_other_table : (hostCallWith { Config.params with glyphTable := blankGlyphs } .reset State.reset).2.readByte 0x000 = 0 ∧
    (hostCallWith { Config.params with glyphTable := Config.glyphTable.set 79 0x10 } .reset State.reset).2.mem = [(0x04F, 0x10)] := by decide +kernel

/-! The decoder: words written out from the table of R97 -/

theorem test_decode_fix : decodeWord 0b0000000011100000 = .ok .cls ∧ decodeWord 0b0000000011101110 = .ok .ret := by decide
theorem test_decode_jp : decodeWord 0b0001001000110100 = .ok (.jpAddr 0x234) := by decide
theorem test_decode_call : decodeWord 0b0010001100000000 = .ok (.callAddr 0x300) := by decide
theorem test_decode_skip_byte :
    decodeWord 0b0011101000000101 = .ok (.seVxByte 0xA 0x05) ∧ decodeWord 0b0100101000000101 = .ok (.sneVxByte 0xA 0x05) := by decide
theorem test_decode_skip_reg :
    decodeWord 0b0101101010110000 = .ok (.seVxVy 0xA 0xB) ∧ decodeWord 0b1001101010110000 = .ok (.sneVxVy 0xA 0xB) := by decide
theorem test_decode_byte :
    decodeWord 0b0110101001000010 = .ok (.ldVxByte 0xA 0x42) ∧ decodeWord 0b0111000011111111 = .ok (.addVxByte 0x0 0xFF) ∧
    decodeWord 0b1100001100001111 = .ok (.rndVxByte 0x3 0x0F) := by decide
theorem test_decode_family8 :
    decodeWord 0b1000000100100000 = .ok (.ldVxVy 1 2) ∧ decodeWord 0b1000000100100001 = .ok (.orVxVy 1 2) ∧
    decodeWord 0b1000000100100010 = .ok (.andVxVy 1 2) ∧ decodeWord 0b1000000100100011 = .ok (.xorVxVy 1 2) ∧
    decodeWord 0b1000000100100100 = .ok (.addVxVy 1 2) ∧ decodeWord 0b1000000100100101 = .ok (.subVxVy 1 2) ∧
    decodeWord 0b1000000100100110 = .ok (.shrVx 1 2) ∧ decodeWord 0b1000000100100111 = .ok (.subnVxVy 1 2) ∧
    decodeWord 0b1000000100101110 = .ok (.shlVx 1 2) := by decide
theorem test_decode_addr :
    decodeWord 0b1010001011110000 = .ok (.ldIAddr 0x2F0) ∧ decodeWord 0b1011001100000000 = .ok (.jpV0Addr 0x300) := by decide
theorem test_decode_draw : decodeWord 0b1101000100100101 = .ok (.drwVxVyNibble 1 2 5) := by decide
theorem test_decode_keys :
    decodeWord 0b1110001110011110 = .ok (.skpVx 3) ∧ decodeWord 0b1110001110100001 = .ok (.sknpVx 3) := by decide
theorem test_decode_familyF :
    decodeWord 0b1111000100000111 = .ok (.ldVxDT 1) ∧ decodeWord 0b1111001000001010 = .ok (.ldVxK 2) ∧
    decodeWord 0b1111000000010101 = .ok (.ldDTVx 0) ∧ decodeWord 0b1111000000011000 = .ok (.ldSTVx 0) ∧
    decodeWord 0b1111010000011110 = .ok (.addIVx 4) ∧ decodeWord 0b1111010100101001 = .ok (.ldFVx 5) ∧
    decodeWord 0b1111000000110011 = .ok (.ldBVx 0) ∧ decodeWord 0b1111001001010101 = .ok (.ldMemVx 2) ∧
    decodeWord 0b1111001001100101 = .ok (.ldVxMem 2) := by decide
/-- TE1 to TE9: words of no instruction. -/
theorem test_decode_rejects :
    decodeWord 0x0000 = .error .family0 ∧ decodeWord 0x01E0 = .error .family0 ∧ decodeWord 0x0FEE = .error .family0 ∧
    decodeWord 0x5121 = .error .family5 ∧ decodeWord 0x8128 = .error .family8 ∧ decodeWord 0x812F = .error .family8 ∧
    decodeWord 0x9121 = .error .family9 ∧ decodeWord 0xE19F = .error .familyE ∧ decodeWord 0xF156 = .error .familyF := by decide
theorem test_decode_too_short : decode [0x60] = .error .tooShort := by decide
theorem test_decode_leaves_rest : decode [0x60, 0x42, 0x12] = .ok (.ldVxByte 0 0x42, [0x12]) := by decide
theorem test_table_word : decodeTableWord 16 0xD125 = some (.drwVxVyNibble 1 2 5) := by decide

/-! Steps -/

/-- The state after one step of a word at 0x200, from reset changed by `f`. -/
def run (w : Word) (f : State → State) : State := stateAfter ((f State.reset).placeWord w)

/-- Two registers set. -/
def regs (x : Nibble) (a : Byte) (y : Nibble) (b : Byte) (s : State) : State := (s.setV x a).setV y b

/-- A byte of memory set. -/
def poke (a : Nat) (b : Byte) (s : State) : State := s.setMem (Memory.write s.mem a b)

/-- A key held down. -/
def hold (k : Nat) (s : State) : State := { s with keys := s.keys.setIfInBounds k true }

/-- A stack with `n` entries in use, every entry `e`. -/
def stacked (n : Fin 17) (e : Word) (s : State) : State := { s with sp := n, stack := Vector.replicate 16 e }

/-- The recorded fault as code number and info. -/
def faultOf (s : State) : Option (Nat × Word) := s.fault.map fun r => (r.code.number, r.info)

theorem test_withFetchWord : (stateAfter (State.reset.withFetchWord 16 0x6A42)).getV 0xA = 0x42 := by decide
/-- TE13: an odd PC. -/
theorem test_odd_fetch : (stateAfter ((State.reset.setPc 0x201).placeWord 0x6042)).pc = 0x203 := by decide
/-- TE12 and TE10. -/
theorem test_fetch_top : (stateAfter ((State.reset.setPc 0xFFE).placeWord 0x6042)).pc = 0x1000 := by decide
theorem test_fetch_out : faultOf (stateAfter (State.reset.setPc 0xFFF)) = some (1, 0xFFF) := by decide
/-- TE1. -/
theorem test_decode_fault : (stateAfter State.reset).fault = some ⟨.decode, 0x200, some 0x0000, 0x0000⟩ := by decide
/-- SX11: no tick. -/
theorem test_decode_fault_no_tick : (run 0x00FF fun s => s.setDT 5).dt = 5 := by decide
/-- TE14. -/
theorem test_halted_step :
    (stateAfter (((State.reset.setST 4).takeFault .decode (some 0) 0).setST 4)).st = 4 := by decide

/-- TD1. -/
theorem test_cls : Framebuffer.pixel (run 0x00E0 fun s => s.setFb (Framebuffer.setPixel s.fb 3 4 true)).fb 3 4 = false := by decide
/-- TC2. -/
theorem test_ret : (run 0x00EE (stacked 2 0x20A)).pc = 0x20C ∧ (run 0x00EE (stacked 2 0x20A)).sp = 1 := by decide
/-- TX11. -/
theorem test_ret_underflow : (run 0x00EE id).fault = some ⟨.stackUnderflow, 0x200, some 0x00EE, 0⟩ := by decide
/-- R132. -/
theorem test_jp : (run 0x1234 id).pc = 0x234 := by decide
/-- TC4. -/
theorem test_call : (run 0x2300 (stacked 15 0)).stack[15] = 0x200 ∧ (run 0x2300 (stacked 15 0)).sp = 16 := by decide
/-- TC5. -/
theorem test_call_overflow : faultOf (run 0x2300 (stacked 16 0)) = some (3, 0x300) := by decide
/-- SX5. -/
theorem test_se_byte : (run 0x3A05 (regs 0xA 5 0 0)).pc = 0x204 ∧ (run 0x3A05 (regs 0xA 6 0 0)).pc = 0x202 := by decide
/-- SX5. -/
theorem test_sne_byte : (run 0x4A05 (regs 0xA 6 0 0)).pc = 0x204 ∧ (run 0x4A05 (regs 0xA 5 0 0)).pc = 0x202 := by decide
/-- SX5. -/
theorem test_se_reg : (run 0x5AB0 (regs 0xA 9 0xB 9)).pc = 0x204 ∧ (run 0x5AB0 (regs 0xA 9 0xB 8)).pc = 0x202 := by decide
/-- SX5. -/
theorem test_sne_reg : (run 0x9AB0 (regs 0xA 9 0xB 8)).pc = 0x204 ∧ (run 0x9AB0 (regs 0xA 9 0xB 9)).pc = 0x202 := by decide
/-- TC15. -/
theorem test_jp_v0 : (run 0xBFFF (regs 0 0xFF 1 0)).pc = 0x10FE := by decide
/-- TC18. -/
theorem test_skp : (run 0xE59E fun s => hold 15 (regs 5 0xF 0 0 s)).pc = 0x204 := by decide
/-- TC16. -/
theorem test_skp_fault : faultOf (run 0xE59E (regs 5 0x10 0 0)) = some (7, 0x10) := by decide
/-- TC19. -/
theorem test_sknp : (run 0xE5A1 id).pc = 0x204 := by decide
/-- TC17. -/
theorem test_sknp_fault : faultOf (run 0xE5A1 (regs 5 0xFF 0 0)) = some (7, 0xFF) := by decide

/-- TA1. -/
theorem test_ld_byte : (run 0x6FAB id).getV 0xF = 0xAB := by decide
/-- TA2: a wrap, and no flag. -/
theorem test_add_byte : (run 0x70FF (regs 0 0xFF 0xF 0x33)).getV 0 = 0xFE ∧ (run 0x70FF (regs 0 0xFF 0xF 0x33)).getV 0xF = 0x33 := by decide
/-- TA4. -/
theorem test_ld_reg : (run 0x8F20 (regs 2 0x55 0 0)).getV 0xF = 0x55 := by decide
/-- R174. -/
theorem test_or : (run 0x8121 (regs 1 0x0F 2 0xF0)).getV 1 = 0xFF := by decide
/-- R175. -/
theorem test_and : (run 0x8122 (regs 1 0x3C 2 0x0F)).getV 1 = 0x0C := by decide
/-- R176. -/
theorem test_xor : (run 0x8123 (regs 1 0x3C 2 0x0F)).getV 1 = 0x33 := by decide
/-- SX3. -/
theorem test_add_carry : (run 0x8124 (regs 1 0xFF 2 0x01)).getV 1 = 0 ∧ (run 0x8124 (regs 1 0xFF 2 0x01)).getV 0xF = 1 := by decide
/-- TA10: the flag is written last. -/
theorem test_add_into_vf : (run 0x8F24 (regs 0xF 0xFF 2 0x01)).getV 0xF = 1 := by decide
/-- SX4: the equal case. -/
theorem test_sub_equal : (run 0x8125 (regs 1 7 2 7)).getV 1 = 0 ∧ (run 0x8125 (regs 1 7 2 7)).getV 0xF = 0 := by decide
/-- SX4: the saturating case. -/
theorem test_sub_below : (run 0x8125 (regs 1 3 2 5)).getV 1 = 0 ∧ (run 0x8125 (regs 1 5 2 3)).getV 1 = 2 := by decide
/-- TA17: y is ignored. -/
theorem test_shr : (run 0x8126 (regs 1 0x05 2 0xFF)).getV 1 = 0x02 ∧ (run 0x8126 (regs 1 0x05 2 0xFF)).getV 0xF = 1 := by decide
/-- TA21. -/
theorem test_subn : (run 0x8127 (regs 1 0 2 0xFF)).getV 1 = 0xFF ∧ (run 0x8127 (regs 1 0 2 0xFF)).getV 0xF = 1 := by decide
/-- TA23, TA25: SHL_VF_RAW = true. -/
theorem test_shl : (run 0x810E (regs 1 0x81 2 0)).getV 1 = 0x02 ∧ (run 0x810E (regs 1 0x81 2 0)).getV 0xF = 0x80 := by decide
theorem test_shl_vf : (run 0x8F0E (regs 0xF 0xC0 2 0)).getV 0xF = 0x80 := by decide
/-- TA28: the mask 0 gives 0, and one byte is still taken. -/
theorem test_rnd_draws : (run 0xC300 id).draws = 1 := by decide
theorem test_rnd_mask : ∃ t, exec (.rndVxByte 3 0) State.reset = .next t ∧ t.getV 3 = 0 :=
  ⟨_, rfl, by simp [State.Sized.writeBack, State.Sized.advance, State.Sized.setPc, State.Sized.setV, State.Sized.getV]⟩

/-- SX12. -/
theorem test_ld_i : (run 0xA123 id).i = 0x123 ∧ (run 0xA123 id).pc = 0x204 := by decide
/-- TM3. -/
theorem test_ld_vx_dt : (run 0xF107 fun s => s.setDT 9).getV 1 = 9 ∧ (run 0xF107 fun s => s.setDT 9).dt = 8 := by decide
/-- TM6. -/
theorem test_ld_k : (run 0xF20A fun s => hold 9 (hold 7 s)).getV 2 = 7 ∧ (run 0xF20A fun s => hold 9 (hold 7 s)).pc = 0x202 := by decide
/-- TM5. -/
theorem test_ld_k_blocked : (run 0xF20A fun s => s.setDT 3).pc = 0x200 ∧ (run 0xF20A fun s => s.setDT 3).dt = 2 := by decide
/-- R214. -/
theorem test_ld_dt : (run 0xF015 (regs 0 5 1 0)).dt = 4 := by decide
/-- R215. -/
theorem test_ld_st : (run 0xF018 (regs 0 3 1 0)).st = 2 ∧ (run 0xF018 (regs 0 3 1 0)).tone = true := by decide
/-- TM16. -/
theorem test_add_i : (run 0xF41E fun s => regs 0xF 0xFF 4 0xFF (s.setI 0x300)).i = 0x3FF ∧
    (run 0xF41E fun s => regs 0xF 0xFF 4 0xFF (s.setI 0x300)).getV 0xF = 0xFF := by decide
/-- TM15. -/
theorem test_add_i_overflow : faultOf (run 0xF41E fun s => regs 4 1 0 0 (s.setI 0xFFFF)) = some (8, 1) := by decide
/-- TM17. -/
theorem test_ld_f : (run 0xF529 (regs 5 0xFF 0 0)).i = 1275 := by decide
/-- TM22: the top of memory. -/
theorem test_ld_b : ([0xFFD, 0xFFE, 0xFFF].map (run 0xF033 fun s => regs 0 123 1 0 (s.setI 0xFFD)).readByte) = [1, 2, 3] := by decide
/-- TM23 and TM24. -/
theorem test_ld_b_faults : faultOf (run 0xF033 fun s => s.setI 0xFFE) = some (5, 0x1000) ∧
    faultOf (run 0xF033 fun s => s.setI 0x04F) = some (6, 0x04F) := by decide
/-- R219. -/
theorem test_store : ([0x300, 0x301, 0x302].map (run 0xF155 fun s => regs 0 1 1 2 (s.setI 0x300)).readByte) = [1, 2, 0] := by decide
/-- TM28 and TM26. -/
theorem test_store_faults : faultOf (run 0xFF55 fun s => s.setI 0xFF1) = some (5, 0x1000) ∧
    faultOf (run 0xF055 id) = some (6, 0) := by decide
/-- TM30: reading the glyph region. -/
theorem test_load : ([0, 1, 2, 3, 4, 5].map (run 0xF465 id).getV) = [0xF0, 0x90, 0x90, 0x90, 0xF0, 0] := by decide
/-- TM32. -/
theorem test_load_fault : faultOf (run 0xF065 fun s => s.setI 0x2000) = some (5, 0x2000) := by decide

/-- SX7: the wrap at the right edge. -/
theorem test_draw_wrap :
    [60, 63, 0, 3, 4, 59].map (fun c => Framebuffer.pixel (run 0xD121 fun s => regs 1 60 2 3 (poke 0x300 0xFF (s.setI 0x300))).fb c 3) =
      [true, true, true, true, false, false] := by decide
/-- TD9: VF as both coordinates, then 0. -/
theorem test_draw_vf :
    Framebuffer.pixel (run 0xDFF1 fun s => regs 0xF 1 0 0 (poke 0x300 0xFF (s.setI 0x300))).fb 1 1 = true ∧
    (run 0xDFF1 fun s => regs 0xF 1 0 0 (poke 0x300 0xFF (s.setI 0x300))).getV 0xF = 0 := by decide
/-- TD3: the glyph 0 clipped at the bottom. -/
theorem test_draw_clip :
    Framebuffer.pixel (run 0xD125 (regs 1 0 2 30)).fb 3 31 = true ∧ Framebuffer.pixel (run 0xD125 (regs 1 0 2 30)).fb 0 0 = false := by decide
/-- SX6: a lit pixel goes off, with VF = 1. -/
theorem test_draw_collision :
    (run 0xD121 fun s => (regs 1 10 2 5 (poke 0x300 0x80 (s.setI 0x300))).setFb (Framebuffer.setPixel s.fb 10 5 true)).getV 0xF = 1 := by decide
/-- TD14: clipped rows are range-checked. -/
theorem test_draw_fault : faultOf (run 0xD125 fun s => regs 2 31 1 0 (s.setI 0xFFD)) = some (5, 0x1000) := by decide
/-- TD4 and TD5: the other vertical policies. -/
theorem test_draw_policy_wrap :
    ∃ t, execDrwWith .wrap 1 2 5 (regs 1 0 2 30 State.reset) = .next t ∧ Framebuffer.pixel t.fb 0 0 = true :=
  ⟨_, rfl, by decide⟩
theorem test_draw_policy_fault :
    ∃ t, execDrwWith .fault 1 2 5 (regs 1 0 2 30 State.reset) = .next t ∧ faultOf t = some (9, 30) := ⟨_, rfl, by decide⟩

/-- 43_display R257: a step that raises DRAW_OUT_OF_RANGE, under DRAW_VERTICAL = fault. -/
theorem test_step_draw_fault : ∃ t, stepWith { Config.params with drawVertical := .fault }
    ((regs 1 0 2 30 State.reset).placeWord 0xD125) = .next t ∧ faultOf t = some (9, 30) := ⟨_, rfl, by decide⟩
/-- 42_memory_timers R211: ANNN_EXTRA_ADVANCE = false. -/
theorem test_step_annn_plain : ∃ t, stepWith { Config.params with annnExtraAdvance := false } (State.reset.placeWord 0xA123) =
    .next t ∧ t.pc = 0x202 ∧ t.i = 0x123 := ⟨_, rfl, by decide, by decide⟩
/-- 41_alu R181: SHL_VF_RAW = false. -/
theorem test_step_shl_flag : ∃ t, stepWith { Config.params with shlVfRaw := false } ((regs 1 0x81 2 0 State.reset).placeWord 0x811E) =
    .next t ∧ t.getV 1 = 0x02 ∧ t.getV 0xF = 1 := ⟨_, rfl, by decide, by decide⟩
/-- 43_display R255, R258: on a display of 8 by 3 the glyph 0's fourth row wraps onto its first: F0, then 90. -/
theorem test_draw_small_wrap : ∃ t, execWith { Config.params with drawVertical := .wrap } (.drwVxVyNibble 1 2 4) (State.Sized.reset 8 3) =
    .next t ∧ [0, 1, 2, 3, 4].map (fun c => Framebuffer.pixel t.fb c 0) = [false, true, true, false, false] ∧ t.getV 0xF = 1 :=
  ⟨_, rfl, by decide, by decide⟩

/-! Timers and the host -/

/-- TX1: ST = 3 gives the tone in three steps; here the step from ST = 1 and the one from ST = 0. -/
theorem test_tone : (run 0x6000 fun s => s.setST 1).tone = true ∧ (run 0x6000 id).tone = false := by decide
/-- TX7. -/
theorem test_load_program : (hostCall (.loadProgram [0x60, 0x01]) State.reset).2.readByte 0x201 = 0x01 := by decide
/-- TX8 and TX9. -/
theorem test_set_key : (hostCall (.setKey 16 true) State.reset).1 = .error .keyIndexError ∧
    (hostCall (.setKey 15 true) State.reset).2.keyPressed 15 = true := by decide
/-- TD16 and TD17. -/
theorem test_get_pixel : (hostCall (.getPixel 133) (State.reset.setFb (Framebuffer.setPixel State.reset.fb 5 2 true))).1 = .flag true ∧
    (hostCall (.getPixel 2048) State.reset).1 = .error .pixelIndexError := by decide
/-- TX10. -/
theorem test_expired : (hostCall .delayTimerExpired (State.reset.setST 7)).1 = .flag true ∧
    (hostCall .soundTimerExpired (State.reset.setST 7)).1 = .flag false := by decide
/-- TE15. -/
theorem test_reset_halted : (hostCall .reset (stateAfter State.reset)).2 = State.reset := by decide +kernel
/-- P4, step 4. -/
theorem test_result_blocked : stepResult (State.reset.placeWord 0xF20A) = .blocked := by decide

/-! Witnesses: for each statement with hypotheses, data that meets them -/

/-- A halted state. -/
def halted : State := State.reset.takeFault .decode (some 0) 0

theorem witness_EncodeOfDecode : decodeWord 0xD125 = .ok (.drwVxVyNibble 1 2 5) := by decide
theorem witness_DecodeAgreesWithTable : decodeWord 0x8124 = .ok (.addVxVy 1 2) ∧ decodeWord 0x8128 = .error .family8 ∧
    (⟨"ADD_Vx__Vy", 0xF00F, 0x8004⟩ : Row) ∈ opcodeTable ∧ Row.takes ⟨"ADD_Vx__Vy", 0xF00F, 0x8004⟩ 0x8124 = true := by decide
theorem witness_FamilyZeroWholeWord : (0x0FEE : Word).toNat / 4096 = 0 ∧ (0x0FEE : Word) ≠ 0x00E0 ∧ (0x0FEE : Word) ≠ 0x00EE ∧
    (State.reset.placeWord 0x0FEE).fault = none ∧ (State.reset.placeWord 0x0FEE).fetch = some 0x0FEE := by decide
theorem witness_StepRunsDecoded : (State.reset.placeWord 0x00EE).fault = none ∧ (State.reset.placeWord 0x00EE).pc.toNat + 1 ≤ 0xFFF ∧
    decode [(State.reset.placeWord 0x00EE).readByte 0x200, (State.reset.placeWord 0x00EE).readByte 0x201] = .ok (.ret, []) := by decide
theorem witness_StepRunsDecoded_faults : ∃ u r, exec .ret (State.reset.placeWord 0x00EE) = .next u ∧ u.fault = some r :=
  ⟨_, _, rfl, rfl⟩
theorem witness_StepRunsDecoded_completes : ∃ u, exec .cls (State.reset.placeWord 0x00E0) = .next u ∧ u.fault = none := ⟨_, rfl, rfl⟩
theorem witness_StepRunsDecoded_parameters : ((State.Sized.reset 8 1).placeWord 0x00EE).fault = none ∧
    ((State.Sized.reset 8 1).placeWord 0x00EE).pc.toNat + 1 ≤ 0xFFF ∧
    decode [((State.Sized.reset 8 1).placeWord 0x00EE).readByte 0x200, ((State.Sized.reset 8 1).placeWord 0x00EE).readByte 0x201] =
      .ok (.ret, []) := by decide
theorem witness_FetchBigEndian : (State.reset.setPc 0xFFE).pc.toNat + 1 ≤ 0xFFF ∧ (State.reset.setPc 0xFFF).pc.toNat + 1 > 0xFFF ∧
    (State.reset.setPc 0xFFF).fault = none := by decide
theorem witness_UnmatchedWordFaults : State.reset.fault = none ∧ State.reset.fetch = some 0x0000 ∧
    ∀ r ∈ opcodeTable, r.takes 0x0000 = false := by decide
theorem witness_HaltedUntilReset : halted.fault = some ⟨.decode, 0x200, some 0, 0⟩ ∧ HostCall.step ≠ HostCall.reset := by decide
theorem witness_FaultsAreAtomic : ∃ t r, State.reset.fault = none ∧ step State.reset = .next t ∧ t.fault = some r := ⟨_, _, rfl, rfl, rfl⟩
theorem witness_FaultsAreAtomic_parameters : ∃ t r, (State.Sized.reset 8 1).fault = none ∧
    stepWith { Config.params with drawVertical := .fault } ((State.Sized.reset 8 1).placeWord 0xD122) = .next t ∧ t.fault = some r :=
  ⟨_, _, rfl, rfl, rfl⟩
theorem witness_TimersTick : ∃ u, (State.reset.placeWord 0xF018).fault = none ∧ (State.reset.placeWord 0xF018).fetch = some 0xF018 ∧
    decodeWord 0xF018 = .ok (.ldSTVx 0) ∧ exec (.ldSTVx 0) (State.reset.placeWord 0xF018) = .next u ∧ u.fault = none :=
  ⟨_, rfl, by decide, by decide, rfl, rfl⟩
theorem witness_TimersTick_halted : ∃ t, step halted = .next t ∧ t.fault ≠ none := ⟨_, rfl, by decide⟩

/-- `Fx18` and then a no-op, with V0 = 1. -/
def toneState : State := (State.reset.setV 0 1).setMem (Memory.writeBytes [] 0x200 [0xF0, 0x18, 0x60, 0x01])

theorem witness_ToneForExactlyVSteps : toneState.nextInstr = some (.ldSTVx 0) ∧ (∀ k, k < 2 → (after (k + 1) toneState).fault = none) ∧
    (∀ k, 0 < k → k < 2 → ∀ y : Nibble, (after k toneState).nextInstr ≠ some (.ldSTVx y)) := by
  refine ⟨by decide, by decide, ?_⟩
  intro k h1 h2 y
  obtain rfl : k = 1 := by omega
  have h : (after 1 toneState).nextInstr = some (.ldVxByte 0 1) := by decide
  rw [h]; simp
theorem witness_StepResults_faulted : ∃ t r, step State.reset = .next t ∧ t.fault = some r := ⟨_, _, rfl, rfl⟩
theorem witness_StepResults_blocked : ∃ t, step (State.reset.placeWord 0xF20A) = .next t ∧ t.fault = none ∧
    (State.reset.placeWord 0xF20A).nextInstr = some (.ldVxK 2) ∧ ∀ k : Fin 16, (State.reset.placeWord 0xF20A).keys[k] = false :=
  ⟨_, rfl, rfl, by decide, by decide⟩
theorem witness_StepResults_key : ∃ t, step ((hold 15 State.reset).placeWord 0xF20A) = .next t ∧ t.fault = none ∧
    ((hold 15 State.reset).placeWord 0xF20A).nextInstr = some (.ldVxK 2) ∧ ((hold 15 State.reset).placeWord 0xF20A).keys[15] = true :=
  ⟨_, rfl, rfl, by decide, by decide⟩
theorem witness_StepResults_ok : ∃ t, step (State.reset.placeWord 0x00E0) = .next t ∧ t.fault = none ∧
    ∀ x : Nibble, (State.reset.placeWord 0x00E0).nextInstr ≠ some (.ldVxK x) := by
  have h : (State.reset.placeWord 0x00E0).nextInstr = some .cls := by decide
  exact ⟨_, rfl, rfl, fun x => by rw [h]; simp⟩
theorem witness_StepKeepsMemoryForm : ∃ t, Memory.wf (poke 0x300 7 State.reset).mem = true ∧ step (poke 0x300 7 State.reset) = .next t :=
  ⟨_, by decide, rfl⟩
theorem witness_StepKeepsPcBounded : ∃ t, PcBounded (State.reset.setPc 0x10FE) ∧ step (State.reset.setPc 0x10FE) = .next t := by
  have h : ∀ j : Fin 16, (State.reset.stack[j]).toNat ≤ 0xFFE := by decide
  exact ⟨_, ⟨by decide, fun j hj => h ⟨j, hj⟩⟩, rfl⟩
theorem witness_GlyphRegionReadOnly : (∃ t, step (State.reset.placeWord 0xF055) = .next t) ∧ 0x04F < 0x050 ∧
    (State.reset.setI 0x04F).i.toNat < 0x050 := ⟨⟨_, rfl⟩, by decide, by decide⟩
theorem witness_HostOperationsKeepInvariants : Memory.wf State.reset.mem = true ∧ PcBounded State.reset ∧
    GlyphsIntact blankGlyphs (State.Sized.resetWith blankGlyphs : State) ∧ SilentWhenHalted halted := by
  have h : ∀ j : Fin 16, (State.reset.stack[j]).toNat ≤ 0xFFE := by decide
  exact ⟨rfl, ⟨by decide, fun j hj => h ⟨j, hj⟩⟩, glyphsIntact_resetWith _, fun _ => rfl⟩
theorem witness_ComponentWriters : ∃ t u, exec .cls State.reset = .next t ∧ exec .ret State.reset = .next u := ⟨_, _, rfl, rfl⟩
theorem witness_WhoRaisesWhat : ∃ t r, State.reset.fault = none ∧ exec .ret State.reset = .next t ∧ t.fault = some r := ⟨_, _, rfl, rfl, rfl⟩
theorem witness_WhoRaisesWhat_parameters : ∃ t r, (State.Sized.reset 8 1).fault = none ∧
    execWith { Config.params with drawVertical := .fault } (.drwVxVyNibble 1 2 2) (State.Sized.reset 8 1) = .next t ∧ t.fault = some r :=
  ⟨_, _, rfl, rfl, rfl⟩
theorem witness_OnlyRndReadsRandom : ∃ t, (∀ x kk, Instr.cls ≠ .rndVxByte x kk) ∧ exec .cls State.reset = .next t :=
  ⟨_, by simp, rfl⟩
theorem witness_ReturnPops : 0 < (stacked 1 0x202 State.reset).sp.val ∧ State.reset.sp.val = 0 := by decide
theorem witness_CallPushes : (stacked 15 0 State.reset).sp.val < 16 ∧ (stacked 16 0 State.reset).sp.val = 16 := by decide
theorem witness_CallThenReturn : (stacked 15 0 State.reset).sp.val < 16 := by decide
theorem witness_SkipsOnKey : ((regs 5 15 0 0 State.reset).getV 5).toNat < 16 ∧ 15 < ((regs 5 16 0 0 State.reset).getV 5).toNat := by decide
theorem witness_AddWithCarry_SubtractsSaturate_ShiftRight_ShiftLeft : (0x1 : Nibble) ≠ 0xF := by decide
theorem witness_KeyWait_pressed : (hold 15 State.reset).keys[(15 : Fin 16)] = true ∧
    (∀ j : Fin 16, j < 15 → (hold 15 State.reset).keys[j] = false) ∧ ((hold 15 State.reset).placeWord 0xF20A).fault = none ∧
    ((hold 15 State.reset).placeWord 0xF20A).fetch = some (0xF#4 ++ 0x2#4 ++ 0x0A#8) := by decide
theorem witness_KeyWait_blocked : (∀ k : Fin 16, (State.reset.placeWord 0xF20A).keys[k] = false) ∧
    (State.reset.placeWord 0xF20A).fault = none ∧
    (State.reset.placeWord 0xF20A).fetch = some (0xF#4 ++ 0x2#4 ++ 0x0A#8) := by decide
theorem witness_AddToAddressRegister :
    (regs 4 0xFF 0 0 (State.reset.setI 0xFF00)).i.toNat + ((regs 4 0xFF 0 0 (State.reset.setI 0xFF00)).getV 4).toNat ≤ 0xFFFF ∧
    (regs 4 1 0 0 (State.reset.setI 0xFFFF)).i.toNat + ((regs 4 1 0 0 (State.reset.setI 0xFFFF)).getV 4).toNat > 0xFFFF := by decide
theorem witness_GlyphAddress : GlyphsIntact Config.glyphTable (regs 5 15 0 0 State.reset) ∧
    ((regs 5 15 0 0 State.reset).getV 5).toNat < 16 := ⟨by unfold GlyphsIntact; decide, by decide⟩
theorem witness_StoreDecimalDigits : 0x050 ≤ (State.reset.setI 0x050).i.toNat ∧ (State.reset.setI 0xFFD).i.toNat + 2 ≤ 0xFFF ∧
    0x050 ≤ (State.reset.setI 0xFFD).i.toNat ∧ (State.reset.setI 0xFFE).i.toNat + 2 > 0xFFF ∧
    (State.reset.setI 0x04F).i.toNat < 0x050 := by decide
theorem witness_StoreRegisters : 0x050 ≤ (State.reset.setI 0xFF0).i.toNat ∧ (State.reset.setI 0xFF0).i.toNat + (0xF : Nibble).toNat ≤ 0xFFF ∧
    (State.reset.setI 0xFF1).i.toNat + (0xF : Nibble).toNat > 0xFFF ∧ (State.reset.setI 0x04F).i.toNat < 0x050 := by decide
theorem witness_LoadRegisters : (State.reset.setI 0xFF9).i.toNat + (0x6 : Nibble).toNat ≤ 0xFFF ∧
    (State.reset.setI 0x1000).i.toNat + (0x0 : Nibble).toNat > 0xFFF := by decide
theorem witness_StoreLoadRoundTrip : 0x050 ≤ (State.reset.setI 0x050).i.toNat ∧
    (State.reset.setI 0x050).i.toNat + (0xF : Nibble).toNat ≤ 0xFFF := by decide
theorem witness_DrawSprite : (0 : Nibble).toNat = 0 ∧ (State.reset.setI 0xFFB).i.toNat + ((5 : Nibble).toNat - 1) ≤ 0xFFF ∧
    0 < (5 : Nibble).toNat ∧ (State.reset.setI 0xFFC).i.toNat + ((5 : Nibble).toNat - 1) > 0xFFF := by decide
theorem witness_DrawPolicies_fits : 8 ≤ 64 ∧ 1 ≤ 32 ∧ (5 : Nibble).toNat ≤ 32 ∧ 0 < (5 : Nibble).toNat ∧
    (regs 1 0 2 27 State.reset).i.toNat + ((5 : Nibble).toNat - 1) ≤ 0xFFF ∧
    ((regs 1 0 2 27 State.reset).getV 2).toNat + ((5 : Nibble).toNat - 1) < 32 := by decide
theorem witness_DrawPolicies_fault : { Config.params with drawVertical := .fault }.drawVertical = .fault ∧ 0 < (5 : Nibble).toNat ∧
    (regs 1 0 2 28 State.reset).i.toNat + ((5 : Nibble).toNat - 1) ≤ 0xFFF ∧
    ((regs 1 0 2 28 State.reset).getV 2).toNat + ((5 : Nibble).toNat - 1) ≥ 32 := by decide
theorem witness_DrawPolicies_range : 0 < (5 : Nibble).toNat ∧ (State.reset.setI 0xFFC).i.toNat + ((5 : Nibble).toNat - 1) > 0xFFF := by
  decide
/-- The smallest display, and a sprite of more rows than it has. -/
theorem witness_DrawAtEverySize : 8 ≤ 8 ∧ 1 ≤ 1 ∧ (State.Sized.reset 8 1).i.toNat + ((15 : Nibble).toNat - 1) ≤ 0xFFF ∧
    Config.params.drawVertical ≠ .fault := by decide
theorem witness_RedrawErases : (1 : Nibble) ≠ 0xF ∧ (2 : Nibble) ≠ 0xF ∧ State.reset.i.toNat + ((5 : Nibble).toNat - 1) ≤ 0xFFF := by decide
theorem witness_FramebufferModel : 0 < 64 * 32 ∧ 2047 < 64 * 32 ∧ 7 < 8 * 1 := by decide
theorem witness_IdleForever : Idle (State.reset.placeWord 0x1200) := ⟨0x200, by decide, by decide⟩
theorem witness_LoadProgram : (List.replicate 3584 (0 : Byte)).length ≤ 3584 ∧ 3584 < (List.replicate 3585 (0 : Byte)).length := by
  rw [List.length_replicate, List.length_replicate]; decide
theorem witness_SetKey : (0 : Int) ≤ 15 ∧ (15 : Int) < 16 ∧ (-1 : Int) < 0 ∧ (16 : Int) ≤ 16 := by decide
theorem witness_GetPixel : 63 < 64 ∧ 31 < 32 ∧ (-1 : Int) < 0 ∧ (2048 : Int) ≤ 2048 ∧ ((8 * 1 : Nat) : Int) ≤ 8 := by decide
theorem witness_HostOperationsFrame : HostCall.setKey 3 true ≠ .reset ∧ HostCall.setKey 3 true ≠ .step := by decide

end Sys2Proof.Tests
end

section
/-! SUPPORT. What a completed instruction may change (`mayChange`, in the terms of `Safety.Frame`), and the frame of each update of
the state. -/

namespace Sys2Proof.Proofs

open Sys2Proof.Machine Sys2Proof.Safety

variable {W H : Nat}

/-- All the general registers. -/
abbrev allRegs : List Nibble := [0x0, 0x1, 0x2, 0x3, 0x4, 0x5, 0x6, 0x7, 0x8, 0x9, 0xA, 0xB, 0xC, 0xD, 0xE, 0xF]

/-- What an instruction may change besides PC where it completes from the state `s`: the writers of 10_state R25, R33 to R35, R38,
20_memory R75, R76 and 41_alu R196, and the registers of 41_alu and 42_memory_timers. -/
def mayChange (i : Instr) (s : State.Sized W H) : MayChange :=
  match i with
  | .cls => { fb := true }
  | .ret | .callAddr _ => { stack := true }
  | .jpAddr _ | .jpV0Addr _ | .seVxByte _ _ | .sneVxByte _ _ | .seVxVy _ _ | .sneVxVy _ _ | .skpVx _ | .sknpVx _ => {}
  | .ldVxByte x _ | .addVxByte x _ | .ldVxVy x _ | .orVxVy x _ | .andVxVy x _ | .xorVxVy x _ => { regs := [x] }
  | .addVxVy x _ | .subVxVy x _ | .shrVx x _ | .subnVxVy x _ | .shlVx x _ => { regs := [x, 0xF] }
  | .ldIAddr _ | .addIVx _ | .ldFVx _ => { i := true }
  | .rndVxByte x _ => { regs := [x], draws := true }
  | .drwVxVyNibble _ _ _ => { regs := [0xF], fb := true }
  | .ldVxDT x | .ldVxK x => { regs := [x] }
  | .ldDTVx _ => { dt := true }
  | .ldSTVx _ => { st := true }
  | .ldBVx _ => { stored := (s.dataAddr 0, 3) }
  | .ldMemVx x => { stored := (s.dataAddr 0, x.toNat + 1) }
  | .ldVxMem _ => { regs := allRegs }

/-! The writers of each component, read off `mayChange` -/

theorem mayChange_i {i : Instr} (s : State.Sized W H) (hld : ∀ a, i ≠ .ldIAddr a) (hadd : ∀ x, i ≠ .addIVx x)
    (hglyph : ∀ x, i ≠ .ldFVx x) : (mayChange i s).i = false := by
  cases i with
  | ldIAddr a => exact absurd rfl (hld a)
  | addIVx x => exact absurd rfl (hadd x)
  | ldFVx x => exact absurd rfl (hglyph x)
  | _ => rfl

theorem mayChange_stack {i : Instr} (s : State.Sized W H) (hcall : ∀ a, i ≠ .callAddr a) (hret : i ≠ .ret) :
    (mayChange i s).stack = false := by
  cases i with
  | callAddr a => exact absurd rfl (hcall a)
  | ret => exact absurd rfl hret
  | _ => rfl

theorem mayChange_dt {i : Instr} (s : State.Sized W H) (h : ∀ x, i ≠ .ldDTVx x) : (mayChange i s).dt = false := by
  cases i with
  | ldDTVx x => exact absurd rfl (h x)
  | _ => rfl

theorem mayChange_st {i : Instr} (s : State.Sized W H) (h : ∀ x, i ≠ .ldSTVx x) : (mayChange i s).st = false := by
  cases i with
  | ldSTVx x => exact absurd rfl (h x)
  | _ => rfl

theorem mayChange_stored {i : Instr} (s : State.Sized W H) (hdigits : ∀ x, i ≠ .ldBVx x) (hregs : ∀ x, i ≠ .ldMemVx x) :
    (mayChange i s).stored = (0, 0) := by
  cases i with
  | ldBVx x => exact absurd rfl (hdigits x)
  | ldMemVx x => exact absurd rfl (hregs x)
  | _ => rfl

theorem mayChange_fb {i : Instr} (s : State.Sized W H) (hcls : i ≠ .cls) (hdrw : ∀ x y n, i ≠ .drwVxVyNibble x y n) :
    (mayChange i s).fb = false := by
  cases i with
  | cls => exact absurd rfl hcls
  | drwVxVyNibble x y n => exact absurd rfl (hdrw x y n)
  | _ => rfl

theorem mayChange_draws {i : Instr} (s : State.Sized W H) (h : ∀ x kk, i ≠ .rndVxByte x kk) :
    (mayChange i s).draws = false := by
  cases i with
  | rndVxByte x kk => exact absurd rfl (h x kk)
  | _ => rfl

/-! The frame of each update. PC is in no frame, so a frame is kept by what sets PC. -/

section
variable (s : State.Sized W H)

theorem frame_refl : Frame {} s s := by simp [Frame]

theorem frame_setPc {c : MayChange} {s t : State.Sized W H} (h : Frame c s t) (a : Word) : Frame c s (t.setPc a) := h

theorem frame_setV (x : Nibble) (b : Byte) : Frame { regs := [x] } s (s.setV x b) := by
  simp +contextual [Frame, getV_setV]

theorem frame_setV_setV (x y : Nibble) (b f : Byte) : Frame { regs := [x, y] } s ((s.setV x b).setV y f) := by
  simp +contextual [Frame, getV_setV]

theorem frame_drawRandom_setV (x : Nibble) (b : Byte) :
    Frame { regs := [x], draws := true } s (s.drawRandom.2.setV x b) := by
  simp +contextual [Frame, getV_setV]

theorem frame_setFb (fb : Framebuffer W H) : Frame { fb := true } s (s.setFb fb) := by simp [Frame]

theorem frame_setFb_setV (fb : Framebuffer W H) (x : Nibble) (b : Byte) :
    Frame { regs := [x], fb := true } s ((s.setFb fb).setV x b) := by
  simp +contextual [Frame, getV_setV]

theorem frame_setI (a : Word) : Frame { i := true } s (s.setI a) := by simp [Frame]

theorem frame_setDT (b : Byte) : Frame { dt := true } s (s.setDT b) := by simp [Frame]

theorem frame_setST (b : Byte) : Frame { st := true } s (s.setST b) := by simp [Frame]

theorem frame_stack (sp : Fin 17) (stack : Vector Word 16) :
    Frame { stack := true } s { s with sp := sp, stack := stack } := by
  simp [Frame, State.Sized.getV, State.Sized.readByte]

theorem mem_allRegs : ∀ r : Nibble, r ∈ allRegs := by decide

theorem frame_setFirstRegs (bytes : List Byte) : Frame { regs := allRegs } s (s.setFirstRegs bytes) :=
  ⟨fun r hr => absurd (mem_allRegs r) hr, by simp⟩

theorem frame_storeBytes (bytes : List Byte) :
    Frame { stored := (s.dataAddr 0, bytes.length) } s (s.storeBytes bytes) := by
  have hread : ∀ a, a < s.i.toNat ∨ s.i.toNat + bytes.length ≤ a → (s.storeBytes bytes).readByte a = s.readByte a := by
    intro a ha
    rw [readByte_storeBytes, if_neg (by omega)]
  simpa [Frame, State.Sized.dataAddr] using hread

end

end Sys2Proof.Proofs
end

section
/-! SUPPORT. What one execution of an instruction can do, once for all instructions, display sizes and parameters: it raises one of
its own faults, or it completes inside the frame `mayChange`. -/

namespace Sys2Proof.Proofs

open Sys2Proof.Machine Sys2Proof.Safety

variable {W H : Nat}

/-- The values PC can have after an instruction that completes (30_encoding R114, 40_control_flow R131 to R140, 42_memory_timers R213). -/
inductive NextPc (s : State.Sized W H) : Word → Prop where
  /-- the wait for a key -/
  | stay : NextPc s s.pc
  | advance : NextPc s (s.pc + 2)
  | skip : NextPc s (s.pc + 4)
  | jump (nnn : Addr) : NextPc s (addrWord nnn)
  | jumpOffset (nnn : Addr) (b : Byte) : NextPc s (addrWord nnn + byteWord b)
  /-- past the call whose address is on the stack -/
  | ret (j : Nat) (h : j < 16) : NextPc s (s.stack[j]'h + 2)

theorem nextPc_skip (s : State.Sized W H) (c : Bool) : NextPc s (if c then s.pc + 4 else s.pc + 2) := by
  cases c
  · exact .advance
  · exact .skip

/-- `t` is a next state of an instruction that completes from `s` and may change `c`: the frame, and what the frame leaves open of
PC, the stack entries and memory. -/
structure Completes (c : MayChange) (s t : State.Sized W H) : Prop where
  frame : Frame c s t
  pc : NextPc s t.pc
  /-- a push writes PC at SP; a pop leaves the entries (10_state R31, R32) -/
  stack : t.stack = s.stack ∨ ∃ h : s.sp.val < 16, t.stack = s.stack.set s.sp.val s.pc h
  /-- a store is checked: inside memory and above the glyph region (20_memory R64, R68) -/
  mem : t.mem = s.mem ∨ ∃ bytes : List Byte, c.stored = (s.i.toNat, bytes.length) ∧ 80 ≤ s.i.toNat ∧
    s.i.toNat + bytes.length ≤ 0x1000 ∧ t.mem = Memory.writeBytes s.mem s.i.toNat bytes

theorem Completes.fault {c : MayChange} {s t : State.Sized W H} (hc : Completes c s t) : t.fault = s.fault := by
  obtain ⟨-, -, -, -, -, -, -, -, -, -, hfault⟩ := hc.frame
  exact hfault

/-- What is not stored to is as it was, as a list too. -/
theorem Completes.mem_of_not_stored {c : MayChange} {s t : State.Sized W H} (hc : Completes c s t) (h : c.stored = (0, 0)) :
    t.mem = s.mem := by
  rcases hc.mem with hmem | ⟨bytes, hstored, hlo, -, -⟩
  · exact hmem
  · have haddr : (s.i.toNat, bytes.length) = (0, 0) := hstored.symm.trans h
    simp only [Prod.mk.injEq] at haddr
    omega

/-- Everything an execution of `i` from `s` can answer. -/
def RaisesOrCompletes (policy : Config.VerticalPolicy) (i : Instr) (s : State.Sized W H) (r : Result W H) : Prop :=
  (∃ code info, MayRaise policy i code ∧ r = .next (s.takeFault code (some (encode i)) info)) ∨
  ∃ t, r = .next t ∧ Completes (mayChange i s) s t

/-! The shapes of completed states that several instructions share -/

theorem completes_advance {c : MayChange} {s t : State.Sized W H} (hframe : Frame c s t) (hpc : t.pc = s.pc)
    (hstack : t.stack = s.stack) (hmem : t.mem = s.mem) : Completes c s t.advance :=
  ⟨hframe, by rw [advance_pc, hpc]; exact .advance, .inl hstack, .inl hmem⟩

theorem completes_writeBack (s : State.Sized W H) (x : Nibble) (b : Byte) : Completes { regs := [x] } s (s.writeBack x b) :=
  completes_advance (frame_setV s x b) rfl rfl rfl

theorem completes_writeBackFlag (s : State.Sized W H) (x : Nibble) (b f : Byte) :
    Completes { regs := [x, 0xF] } s (s.writeBackFlag x b f) :=
  completes_advance (frame_setV_setV s x 0xF b f) rfl rfl rfl

theorem completes_skipIf (s : State.Sized W H) (c : Bool) : Completes {} s (s.skipIf c) :=
  ⟨frame_refl s, nextPc_skip s c, .inl rfl, .inl rfl⟩

theorem completes_setI_advance (s : State.Sized W H) (a : Word) : Completes { i := true } s (s.setI a).advance :=
  completes_advance (frame_setI s a) rfl rfl rfl

theorem completes_setFirstRegs (s : State.Sized W H) (bytes : List Byte) :
    Completes { regs := allRegs } s (s.setFirstRegs bytes).advance :=
  completes_advance (frame_setFirstRegs s bytes) (setFirstRegs_pc ..) (setFirstRegs_stack ..) (setFirstRegs_mem ..)

theorem completes_storeBytes (s : State.Sized W H) (bytes : List Byte) (hlo : 80 ≤ s.i.toNat)
    (hhi : s.i.toNat + bytes.length ≤ 0x1000) :
    Completes { stored := (s.dataAddr 0, bytes.length) } s (s.storeBytes bytes).advance :=
  ⟨frame_storeBytes s bytes, .advance, .inl rfl, .inr ⟨bytes, rfl, hlo, hhi, rfl⟩⟩

/-! The instructions that have a fault of their own, or more than one way to complete -/

section
variable (policy : Config.VerticalPolicy) (s : State.Sized W H)

theorem execRet_cases : RaisesOrCompletes policy .ret s (execRet s) := by
  rcases Nat.eq_zero_or_pos s.sp.val with h | h
  · exact .inl ⟨.stackUnderflow, 0, by simp [MayRaise], by simp [execRet, pop_of_empty s h, raise_eq]⟩
  · obtain ⟨t, hpop, -, ht⟩ := pop_of_entry s h
    have hframe : Frame { stack := true } s t := by rw [ht]; exact frame_stack s t.sp s.stack
    exact .inr ⟨t.setPc (s.stack[s.sp.val - 1] + 2), by simp only [execRet, hpop], frame_setPc hframe _, .ret _ _,
      .inl (by rw [ht]; rfl), .inl (by rw [ht]; rfl)⟩

theorem execCallAddr_cases (nnn : Addr) : RaisesOrCompletes policy (.callAddr nnn) s (execCallAddr nnn s) := by
  by_cases h : s.sp.val < 16
  · obtain ⟨t, hpush, -, hstack, ht⟩ := push_of_room s s.pc h
    have hframe : Frame { stack := true } s t := by rw [ht]; exact frame_stack s t.sp t.stack
    exact .inr ⟨t.setPc (addrWord nnn), by simp only [execCallAddr, hpush], frame_setPc hframe _, .jump nnn, .inr ⟨h, hstack⟩,
      .inl (by rw [ht]; rfl)⟩
  · have hfull : s.sp.val = 16 := by omega
    exact .inl ⟨.stackOverflow, addrWord nnn, by simp [MayRaise], by simp [execCallAddr, push_of_full s s.pc hfull, raise_eq]⟩

theorem execSkpVx_cases (x : Nibble) : RaisesOrCompletes policy (.skpVx x) s (execSkpVx x s) := by
  unfold execSkpVx
  split
  · exact .inl ⟨.keyIndex, _, by simp [MayRaise], rfl⟩
  · exact .inr ⟨_, rfl, completes_skipIf s _⟩

theorem execSknpVx_cases (x : Nibble) : RaisesOrCompletes policy (.sknpVx x) s (execSknpVx x s) := by
  unfold execSknpVx
  split
  · exact .inl ⟨.keyIndex, _, by simp [MayRaise], rfl⟩
  · exact .inr ⟨_, rfl, completes_skipIf s _⟩

theorem execLdVxK_cases (x : Nibble) : RaisesOrCompletes policy (.ldVxK x) s (execLdVxK x s) := by
  unfold execLdVxK
  split
  · exact .inr ⟨_, rfl, completes_writeBack s x _⟩
  · have hframe : Frame { regs := [x] } s s := by simp [Frame]
    exact .inr ⟨s, rfl, hframe, .stay, .inl rfl, .inl rfl⟩

theorem execAddIVx_cases (x : Nibble) : RaisesOrCompletes policy (.addIVx x) s (execAddIVx x s) := by
  unfold execAddIVx
  split
  · exact .inl ⟨.indexOverflow, _, by simp [MayRaise], rfl⟩
  · exact .inr ⟨_, rfl, completes_setI_advance s _⟩

/-- The stores: their checks raise one of two faults, or the bytes are written inside memory and above the glyph region. -/
theorem store_cases {i : Instr} (bytes : List Byte) (hne : 0 < bytes.length)
    (hraise : ∀ code, code = .memOutOfRange ∨ code = .glyphWrite → MayRaise policy i code)
    (hchange : mayChange i s = { stored := (s.dataAddr 0, bytes.length) }) :
    RaisesOrCompletes policy i s (match s.storeFault bytes.length with
      | some (code, info) => raise i code info s
      | none => .next (s.storeBytes bytes).advance) := by
  rcases storeFault_cases s bytes.length with h | h | h
  · obtain ⟨hlo, hhi⟩ := ((storeFault_eq_none s _).1 h).resolve_left (by omega)
    exact .inr ⟨(s.storeBytes bytes).advance, by rw [h], hchange ▸ completes_storeBytes s bytes hlo hhi⟩
  · exact .inl ⟨.memOutOfRange, s.lowestOutOfRange, hraise _ (.inl rfl), by rw [h]; rfl⟩
  · exact .inl ⟨.glyphWrite, s.i, hraise _ (.inr rfl), by rw [h]; rfl⟩

theorem execLdBVx_cases (x : Nibble) : RaisesOrCompletes policy (.ldBVx x) s (execLdBVx x s) :=
  store_cases policy s (bcdDigits (s.getV x)) (by simp [bcdDigits]) (by simp [MayRaise]) rfl

theorem execLdMemVx_cases (x : Nibble) : RaisesOrCompletes policy (.ldMemVx x) s (execLdMemVx x s) := by
  have hlen := length_firstRegs s x
  have h := store_cases policy s (i := .ldMemVx x) (s.firstRegs x) (by omega) (by simp [MayRaise]) (by rw [hlen]; rfl)
  rw [hlen] at h
  exact h

theorem execLdVxMem_cases (x : Nibble) : RaisesOrCompletes policy (.ldVxMem x) s (execLdVxMem x s) := by
  unfold execLdVxMem
  rcases rangeFault_cases s (regCount x) with h | h <;> rw [h]
  · exact .inr ⟨_, rfl, completes_setFirstRegs s _⟩
  · exact .inl ⟨.memOutOfRange, _, by simp [MayRaise], rfl⟩

/-- What the checks of `Dxyn` can answer (43_display R255, R257). -/
theorem drawFault_cases (ys : Byte) (n : Nat) :
    s.drawFault policy ys n = none ∨ s.drawFault policy ys n = some (.memOutOfRange, s.lowestOutOfRange) ∨
      (policy = .fault ∧ s.drawFault policy ys n = some (.drawOutOfRange, byteWord ys)) := by
  unfold State.Sized.drawFault
  rcases rangeFault_cases s n with h | h <;> rw [h]
  · dsimp only
    split
    · rename_i hout
      exact .inr (.inr ⟨hout.1, rfl⟩)
    · exact .inl rfl
  · exact .inr (.inl rfl)

theorem execDrwWith_cases (x y n : Nibble) :
    RaisesOrCompletes policy (.drwVxVyNibble x y n) s (execDrwWith policy x y n s) := by
  unfold execDrwWith
  rcases drawFault_cases policy s (s.getV y) n.toNat with h | h | ⟨hp, h⟩ <;> rw [h]
  · exact .inr ⟨_, rfl, completes_advance (frame_setFb_setV s _ _ _) rfl rfl rfl⟩
  · exact .inl ⟨.memOutOfRange, _, by simp [MayRaise], rfl⟩
  · exact .inl ⟨.drawOutOfRange, _, by simp [MayRaise, hp], rfl⟩

end

/-- Every execution raises a fault of its own instruction or completes inside the instruction's frame. -/
theorem execWith_cases (p : Config.Params) (i : Instr) (s : State.Sized W H) :
    RaisesOrCompletes p.drawVertical i s (execWith p i s) := by
  cases i with
  | cls => exact .inr ⟨_, rfl, completes_advance (frame_setFb s _) rfl rfl rfl⟩
  | ret => exact execRet_cases _ s
  | jpAddr nnn => exact .inr ⟨_, rfl, frame_refl s, .jump nnn, .inl rfl, .inl rfl⟩
  | callAddr nnn => exact execCallAddr_cases _ s nnn
  | jpV0Addr nnn => exact .inr ⟨_, rfl, frame_refl s, .jumpOffset nnn _, .inl rfl, .inl rfl⟩
  | seVxByte | sneVxByte | seVxVy | sneVxVy => exact .inr ⟨_, rfl, completes_skipIf s _⟩
  | skpVx x => exact execSkpVx_cases _ s x
  | sknpVx x => exact execSknpVx_cases _ s x
  | ldVxByte x | addVxByte x | ldVxVy x | orVxVy x | andVxVy x | xorVxVy x | ldVxDT x =>
    exact .inr ⟨_, rfl, completes_writeBack s x _⟩
  | addVxVy x | subVxVy x | shrVx x | subnVxVy x | shlVx x => exact .inr ⟨_, rfl, completes_writeBackFlag s x _ _⟩
  | rndVxByte x kk => exact .inr ⟨_, rfl, completes_advance (frame_drawRandom_setV s x _) rfl rfl rfl⟩
  | drwVxVyNibble x y n => exact execDrwWith_cases _ s x y n
  | ldVxK x => exact execLdVxK_cases _ s x
  | ldDTVx x => exact .inr ⟨_, rfl, completes_advance (frame_setDT s _) rfl rfl rfl⟩
  | ldSTVx x => exact .inr ⟨_, rfl, completes_advance (frame_setST s _) rfl rfl rfl⟩
  | ldIAddr nnn =>
    exact .inr ⟨_, rfl, frame_setI s _, nextPc_skip s _, .inl rfl, .inl rfl⟩
  | addIVx x => exact execAddIVx_cases _ s x
  | ldFVx x => exact .inr ⟨_, rfl, completes_setI_advance s _⟩
  | ldBVx x => exact execLdBVx_cases _ s x
  | ldMemVx x => exact execLdMemVx_cases _ s x
  | ldVxMem x => exact execLdVxMem_cases _ s x

end Sys2Proof.Proofs
end

section
/-! SUPPORT. What one step and one host operation can do to the state, once for all display sizes and parameters. -/

namespace Sys2Proof.Proofs

open Sys2Proof.Machine Sys2Proof.Safety

variable {W H : Nat}

/-- Everything a step can do to the state `s` (30_encoding R110, R113, R117; 60_exceptions R284, R293). -/
inductive StepMove (s : State.Sized W H) : State.Sized W H → Prop where
  /-- the core was halted -/
  | halted (hf : s.fault ≠ none) : StepMove s s.silence
  /-- the fetch, the decode or the instruction faulted -/
  | faulted (hf : s.fault = none) (code : FaultCode) (word : Option Word) (info : Word) :
    StepMove s (s.takeFault code word info)
  /-- the instruction completed, and the timers tick -/
  | completed (hf : s.fault = none) {w : Word} {i : Instr} {t : State.Sized W H} (hfetch : s.fetch = some w)
    (hdecode : decodeWord w = .ok i) (hc : Completes (mayChange i s) s t) : StepMove s t.tick

theorem finishStep_takeFault (s : State.Sized W H) (code : FaultCode) (word : Option Word) (info : Word) :
    finishStep (.next (s.takeFault code word info)) = .next (s.takeFault code word info) := rfl

/-- Every step answers a next state, and is one of the moves. -/
theorem stepWith_move (p : Config.Params) (s : State.Sized W H) : ∃ t, stepWith p s = .next t ∧ StepMove s t := by
  rcases cycle_cases (execWith p) s with ⟨r, hf, h⟩ | ⟨hf, -, h⟩ | ⟨w, e, hf, -, -, h⟩ | ⟨w, i, hf, hfetch, hdecode, h⟩
  · exact ⟨_, h, .halted (by simp [hf])⟩
  · exact ⟨_, h, .faulted hf ..⟩
  · exact ⟨_, h, .faulted hf ..⟩
  · rcases execWith_cases p i s with ⟨code, info, -, hr⟩ | ⟨t, hr, hc⟩
    · exact ⟨_, h.trans (by rw [hr, finishStep_takeFault]), .faulted hf ..⟩
    · have hfinish : t.finish = t.tick := finish_of_none t (hc.fault.trans hf)
      exact ⟨_, h.trans (by rw [hr, finishStep, hfinish]), .completed hf hfetch hdecode hc⟩

/-- Everything a host operation can do to the state `s` (10_state R50 to R56). -/
inductive HostMove (table : Config.GlyphTable) (s : State.Sized W H) : State.Sized W H → Prop where
  /-- a read, or an argument refused -/
  | unchanged : HostMove table s s
  | reset : HostMove table s (hostResetWith table s)
  | loaded (bytes : List Byte) (h : bytes.length ≤ 3584) :
    HostMove table s (s.setMem (Memory.writeBytes s.mem 0x200 bytes))
  | keyed (keys : Vector Bool 16) : HostMove table s { s with keys := keys }
  | stepped {t : State.Sized W H} (h : StepMove s t) : HostMove table s t

theorem hostCallWith_move (p : Config.Params) (c : HostCall) (s : State.Sized W H) :
    HostMove p.glyphTable s (hostCallWith p c s).2 := by
  unfold hostCallWith
  cases c with
  | reset => exact .reset
  | loadProgram bytes =>
    rcases hostCallBy_loadProgram_cases (stepWith p) p.glyphTable bytes s with ⟨hlen, h⟩ | ⟨-, h⟩ <;> rw [h]
    · exact .loaded bytes hlen
    · exact .unchanged
  | setKey index pressed =>
    rcases hostCallBy_setKey_cases (stepWith p) p.glyphTable index pressed s with ⟨-, -, h⟩ | ⟨-, h⟩ <;> rw [h]
    · exact .keyed _
    · exact .unchanged
  | step =>
    obtain ⟨t, h, hmove⟩ := stepWith_move p s
    exact .stepped (by rw [hostCallBy, stateAfterBy_of_next h]; exact hmove)
  | getPixel index => rw [hostCallBy_getPixel_state]; exact .unchanged
  | delayTimerExpired | soundTimerExpired | readState => exact .unchanged

end Sys2Proof.Proofs
end

section
/-! SUPPORT. The four invariants of 10_state R41, R42 and 20_memory R60, R64, each kept by a completed instruction, by a step and by a host
operation. -/

namespace Sys2Proof.Proofs

open Sys2Proof.Machine Sys2Proof.Safety

variable {W H : Nat}

/-! The canonical memory (20_memory R60) -/

theorem Completes.mem_wf {c : MayChange} {s t : State.Sized W H} (hc : Completes c s t) (h : Memory.wf s.mem = true) :
    Memory.wf t.mem = true := by
  rcases hc.mem with hmem | ⟨bytes, -, -, hhi, hmem⟩ <;> rw [hmem]
  · exact h
  · exact Memory.writeBytes_wf hhi h

theorem StepMove.mem_wf {s t : State.Sized W H} (hmove : StepMove s t) (h : Memory.wf s.mem = true) :
    Memory.wf t.mem = true := by
  cases hmove with
  | halted | faulted => exact h
  | completed _ _ _ hc => exact hc.mem_wf h

theorem HostMove.mem_wf {table : Config.GlyphTable} {s t : State.Sized W H} (hmove : HostMove table s t)
    (h : Memory.wf s.mem = true) : Memory.wf t.mem = true := by
  cases hmove with
  | unchanged | keyed => exact h
  | reset => exact Memory.resetWith_wf table
  | loaded bytes hlen => exact Memory.writeBytes_wf (by simp only [Config.memSize]; omega) h
  | stepped hstep => exact hstep.mem_wf h

/-! The bounds of PC and the stack (10_state R42) -/

/-- A fetch succeeds only where both its bytes are inside memory (20_memory R71). -/
theorem pc_le_of_fetch {s : State.Sized W H} {w : Word} (h : s.fetch = some w) : s.pc.toNat ≤ 0xFFE := by
  by_contra hout
  rw [fetch_of_out s (by omega)] at h
  cases h

theorem addrWord_toNat (nnn : Addr) : (addrWord nnn).toNat = nnn.toNat := BitVec.toNat_setWidth_of_le (by decide)

theorem byteWord_toNat (b : Byte) : (byteWord b).toNat = b.toNat := BitVec.toNat_setWidth_of_le (by decide)

theorem addrWord_le (nnn : Addr) : (addrWord nnn).toNat ≤ 0xFFF := by
  rw [addrWord_toNat]
  exact Nat.le_of_lt_succ nnn.isLt

theorem byteWord_le (b : Byte) : (byteWord b).toNat ≤ 0xFF := by
  rw [byteWord_toNat]
  exact Nat.le_of_lt_succ b.isLt

/-- A 16-bit sum is at most the sum of the numbers. -/
theorem toNat_add_le {a : Word} {n : Nat} (h : a.toNat ≤ n) (b : Word) : (a + b).toNat ≤ n + b.toNat := by
  rw [BitVec.toNat_add]
  exact (Nat.mod_le _ _).trans (Nat.add_le_add_right h _)

/-- Every next PC is in bounds, given a PC that was fetched from and the bound of the stack entries. -/
theorem NextPc.le {s : State.Sized W H} {a : Word} (h : NextPc s a) (hpc : s.pc.toNat ≤ 0xFFE)
    (hstack : ∀ (j : Nat) (hj : j < 16), (s.stack[j]'hj).toNat ≤ 0xFFE) : a.toNat ≤ 0x10FE := by
  cases h with
  | stay => omega
  | advance => exact (toNat_add_le hpc 2).trans (by decide)
  | skip => exact (toNat_add_le hpc 4).trans (by decide)
  | jump nnn => exact (addrWord_le nnn).trans (by decide)
  | jumpOffset nnn b => exact (toNat_add_le (addrWord_le nnn) _).trans (Nat.add_le_add_left (byteWord_le b) _)
  | ret j hj => exact (toNat_add_le (hstack j hj) 2).trans (by decide)

theorem Completes.stack_le {c : MayChange} {s t : State.Sized W H} (hc : Completes c s t) (hpc : s.pc.toNat ≤ 0xFFE)
    (h : ∀ (j : Nat) (hj : j < 16), (s.stack[j]'hj).toNat ≤ 0xFFE) (j : Nat) (hj : j < 16) :
    (t.stack[j]'hj).toNat ≤ 0xFFE := by
  rcases hc.stack with hkept | ⟨hsp, hpush⟩
  · rw [hkept]; exact h j hj
  · simp only [hpush, Vector.getElem_set]
    split
    · exact hpc
    · exact h j hj

theorem StepMove.pcBounded {s t : State.Sized W H} (hmove : StepMove s t) (h : PcBounded s) : PcBounded t := by
  cases hmove with
  | halted | faulted => exact h
  | completed _ hfetch _ hc =>
    have hpc := pc_le_of_fetch hfetch
    exact ⟨hc.pc.le hpc h.2, hc.stack_le hpc h.2⟩

theorem pcBounded_reset (table : Config.GlyphTable) (s : State.Sized W H) : PcBounded (hostResetWith table s) := by
  refine ⟨show (BitVec.ofNat 16 Config.progStart).toNat ≤ 0x10FE by decide, fun j hj => ?_⟩
  have hzero : (hostResetWith table s).stack[j]'hj = 0 := Vector.getElem_replicate ..
  rw [hzero]
  decide

theorem HostMove.pcBounded {table : Config.GlyphTable} {s t : State.Sized W H} (hmove : HostMove table s t)
    (h : PcBounded s) : PcBounded t := by
  cases hmove with
  | unchanged | keyed | loaded => exact h
  | reset => exact pcBounded_reset table s
  | stepped hstep => exact hstep.pcBounded h

/-! The glyph region (20_memory R64) -/

/-- Writes of bytes from 0x050 upwards leave the glyph region. -/
theorem read_writeBytes_glyph (m : Memory) {a b : Nat} (bytes : List Byte) (ha : 80 ≤ a) (hb : b < 80) :
    Memory.read (Memory.writeBytes m a bytes) b = Memory.read m b := by
  rw [Memory.read_writeBytes, if_neg (by omega)]

theorem Completes.readByte_glyph {c : MayChange} {s t : State.Sized W H} (hc : Completes c s t) {a : Nat} (ha : a < 80) :
    t.readByte a = s.readByte a := by
  unfold State.Sized.readByte
  rcases hc.mem with hmem | ⟨bytes, -, hlo, -, hmem⟩ <;> rw [hmem]
  exact read_writeBytes_glyph s.mem bytes hlo ha

theorem StepMove.readByte_glyph {s t : State.Sized W H} (hmove : StepMove s t) {a : Nat} (ha : a < 80) :
    t.readByte a = s.readByte a := by
  cases hmove with
  | halted | faulted => rfl
  | completed _ _ _ hc => exact hc.readByte_glyph ha

theorem HostMove.glyphsIntact {table : Config.GlyphTable} {s t : State.Sized W H} (hmove : HostMove table s t)
    (h : GlyphsIntact table s) : GlyphsIntact table t := by
  intro a ha
  cases hmove with
  | unchanged | keyed => exact h a ha
  | reset => exact glyphsIntact_resetWith (W := W) (H := H) table a ha
  | loaded bytes => exact (read_writeBytes_glyph s.mem bytes (by decide) ha).trans (h a ha)
  | stepped hstep => exact (hstep.readByte_glyph ha).trans (h a ha)

/-! The silence of a halted core (10_state R41) -/

/-- After any step a halted core is silent, whatever the state before. -/
theorem StepMove.silentWhenHalted {s t : State.Sized W H} (hmove : StepMove s t) : SilentWhenHalted t := by
  intro hhalted
  cases hmove with
  | halted | faulted => rfl
  | completed hf _ _ hc => exact absurd (hc.fault.trans hf) hhalted

theorem HostMove.silentWhenHalted {table : Config.GlyphTable} {s t : State.Sized W H} (hmove : HostMove table s t)
    (h : SilentWhenHalted s) : SilentWhenHalted t := by
  cases hmove with
  | unchanged | keyed | loaded => exact h
  | reset => exact fun _ => rfl
  | stepped hstep => exact hstep.silentWhenHalted

/-- Settles O20: every host operation is one of the moves, and each move keeps each invariant. -/
theorem hostOperationsKeepInvariants : Obligations.HostOperationsKeepInvariants := by
  unfold Obligations.HostOperationsKeepInvariants
  refine ⟨fun W H p c s => ?_, hostCallWith_default⟩
  have hmove := hostCallWith_move p c s
  exact ⟨hmove.mem_wf, hmove.pcBounded, hmove.glyphsIntact, hmove.silentWhenHalted⟩

end Sys2Proof.Proofs
end

section
/-! SUPPORT. The obligations of 10_state beside the invariants: the writers of each component, and the host operations that take
arguments. -/

namespace Sys2Proof.Proofs

open Sys2Proof.Machine Sys2Proof.Safety

variable {W H : Nat}

/-- Settles O22: a raised fault changes FAULT and TONE alone, and an instruction that completes keeps inside its frame. -/
theorem componentWriters : Obligations.ComponentWriters := by
  unfold Obligations.ComponentWriters
  intro i s t hexec
  rw [← execWith_default] at hexec
  rcases execWith_cases Config.params i s with ⟨code, info, -, h⟩ | ⟨u, h, hc⟩
  · obtain rfl : s.takeFault code (some (encode i)) info = t := Host.Outcome.next.inj (h.symm.trans hexec)
    simp
  · obtain rfl : u = t := Host.Outcome.next.inj (h.symm.trans hexec)
    obtain ⟨-, hi, hstack, hdt, hst, hfb, hdraws, -, hkeys, -⟩ := hc.frame
    exact ⟨fun hld hadd hglyph => hi (mayChange_i s hld hadd hglyph),
      fun hcall hret => hstack (mayChange_stack s hcall hret),
      fun hne => hdt (mayChange_dt s hne),
      fun hne => hst (mayChange_st s hne),
      fun hdigits hregs => hc.mem_of_not_stored (mayChange_stored s hdigits hregs),
      fun hcls hdrw => hfb (mayChange_fb s hcls hdrw),
      fun hne => hdraws (mayChange_draws s hne), hkeys⟩

/-- Settles O56: both ways `loadProgram` can go, and the reads after the image's writes. -/
theorem loadProgram : Obligations.LoadProgram := by
  unfold Obligations.LoadProgram
  intro bytes s
  rcases hostCallBy_loadProgram_cases step Config.glyphTable bytes s with ⟨hlen, h⟩ | ⟨hlen, h⟩
  · refine ⟨fun _ => ⟨_, h, ?placed, ?kept, rfl, ?wf⟩, fun hlong => absurd hlen (by omega)⟩
    case placed =>
      intro j hj
      rw [readByte_setMem, Memory.read_writeBytes, if_pos (by omega), Nat.add_sub_cancel_left]
      exact List.getD_eq_getElem bytes 0 hj
    case kept =>
      intro a ha
      rw [readByte_setMem, Memory.read_writeBytes, if_neg (by omega)]
      rfl
    case wf => exact (HostMove.loaded (table := Config.glyphTable) bytes hlen).mem_wf
  · exact ⟨fun hshort => absurd hlen (by omega), fun _ => h⟩

/-- Settles O57: both ways `setKey` can go. -/
theorem setKey : Obligations.SetKey := by
  unfold Obligations.SetKey
  intro index pressed s
  rcases hostCallBy_setKey_cases step Config.glyphTable index pressed s with ⟨hlo, hhi, h⟩ | ⟨hout, h⟩
  · refine ⟨fun _ _ => ⟨_, h, fun k => ?_, rfl⟩, fun hout => absurd hout (by omega)⟩
    have hindex : index.toNat = k.val ↔ (k.val : Int) = index := by omega
    simp [Vector.getElem_setIfInBounds, hindex]
  · exact ⟨fun hlo hhi => absurd hout (by omega), fun _ => h⟩

/-- The indices of the display's pixels are below W * H. -/
theorem pixelIndex_lt {col row : Nat} (hcol : col < W) (hrow : row < H) : row * W + col < W * H := by
  calc row * W + col < row * W + W := by omega
    _ = (row + 1) * W := (Nat.succ_mul row W).symm
    _ ≤ H * W := Nat.mul_le_mul_right W hrow
    _ = W * H := Nat.mul_comm H W

theorem hostCallWith_getPixel_of_lt (p : Config.Params) (s : State.Sized W H) {col row : Nat} (hcol : col < W) (hrow : row < H) :
    hostCallWith p (.getPixel (row * W + col : Nat)) s = (.flag (Framebuffer.pixel s.fb col row), s) := by
  have hin : (0 : Int) ≤ (row * W + col : Nat) ∧ ((row * W + col : Nat) : Int) < (W * H : Nat) :=
    ⟨Int.natCast_nonneg _, Int.ofNat_lt.2 (pixelIndex_lt hcol hrow)⟩
  have hget : hostGetPixel (row * W + col : Nat) s = .ok (Framebuffer.pixel s.fb col row) := by
    rw [hostGetPixel, if_pos hin, Int.toNat_natCast]
    exact congrArg Except.ok (get_pixelIndex s.fb hcol)
  simp only [hostCallWith, hostCallBy, hget]

theorem hostCallWith_getPixel_of_out (p : Config.Params) (s : State.Sized W H) {index : Int}
    (h : index < 0 ∨ (W * H : Nat) ≤ index) : hostCallWith p (.getPixel index) s = (.error .pixelIndexError, s) := by
  have hget : hostGetPixel index s = .error .pixelIndexError := if_neg (by omega)
  simp only [hostCallWith, hostCallBy, hget]

/-- Settles O58: at every display size, and this hardware's is the one at the defaults. -/
theorem getPixel : Obligations.GetPixel := by
  unfold Obligations.GetPixel
  refine ⟨fun s col row hcol hrow => ?_, fun s index h => ?_, fun W H p s => ⟨fun col row => ?_, fun index => ?_⟩⟩
  · rw [← hostCallWith_default]
    exact hostCallWith_getPixel_of_lt Config.params s hcol hrow
  · rw [← hostCallWith_default]
    exact hostCallWith_getPixel_of_out Config.params s h
  · exact hostCallWith_getPixel_of_lt p s
  · exact hostCallWith_getPixel_of_out p s

end Sys2Proof.Proofs
end

section
/-! SUPPORT. The obligations of 20_memory: the canonical form, the read-only glyph region and the fetch. -/

namespace Sys2Proof.Proofs

open Sys2Proof.Machine Sys2Proof.Safety

/-- This hardware's step is one of the moves. -/
theorem stepMove_of_step {s t : State} (h : step s = .next t) : StepMove s t := by
  obtain ⟨u, hu, hmove⟩ := stepWith_move Config.params s
  rw [stepWith_default] at hu
  obtain rfl : u = t := Host.Outcome.next.inj (hu.symm.trans h)
  exact hmove

/-- Settles O17: a step is one of the moves, and the one that writes memory does so inside the space. -/
theorem stepKeepsMemoryForm : Obligations.StepKeepsMemoryForm := by
  unfold Obligations.StepKeepsMemoryForm
  intro s t hwf hstep
  exact (stepMove_of_step hstep).mem_wf hwf

/-! The glyph region (20_memory R64, D8) -/

/-- `loadProgram` writes from 0x200 upwards or nothing, so no byte of the glyph region. -/
theorem readByte_loadProgram_glyph (s : State) (bytes : List Byte) {a : Nat} (ha : a < 80) :
    (hostCall (.loadProgram bytes) s).2.readByte a = s.readByte a := by
  unfold hostCall
  rcases hostCallBy_loadProgram_cases step Config.glyphTable bytes s with ⟨-, h⟩ | ⟨-, h⟩ <;> rw [h]
  exact read_writeBytes_glyph s.mem bytes (by decide) ha

section
variable {W H : Nat} {s : State.Sized W H}

/-- A store of at most 16 bytes from inside the glyph region is inside memory, so its fault is GLYPH_WRITE. -/
theorem storeFault_of_glyph_le {count : Nat} (h : s.i.toNat < 80) (hpos : 0 < count) (hle : count ≤ 16) :
    s.storeFault count = some (.glyphWrite, s.i) :=
  storeFault_of_glyph s count hpos h (by omega)

theorem execLdBVx_of_glyph (x : Nibble) (h : s.i.toNat < 80) :
    execLdBVx x s = .next (s.takeFault .glyphWrite (some (encode (.ldBVx x))) s.i) := by
  rw [execLdBVx, storeFault_of_glyph_le h (by decide) (by decide)]
  rfl

theorem execLdMemVx_of_glyph (x : Nibble) (h : s.i.toNat < 80) :
    execLdMemVx x s = .next (s.takeFault .glyphWrite (some (encode (.ldMemVx x))) s.i) := by
  rw [execLdMemVx, storeFault_of_glyph_le h (count := regCount x) (Nat.succ_pos _) x.isLt]
  rfl

end

/-- Settles O19: the moves of a step and `loadProgram` keep the glyph region, and both stores fault there. -/
theorem glyphRegionReadOnly : Obligations.GlyphRegionReadOnly := by
  unfold Obligations.GlyphRegionReadOnly
  refine ⟨fun s t hstep a ha => (stepMove_of_step hstep).readByte_glyph ha,
    fun s bytes a ha => readByte_loadProgram_glyph s bytes ha, fun s x h => ⟨?digits, ?registers⟩⟩
  case digits => exact ⟨_, execLdBVx_of_glyph x h, takeFault_faultedFrom ..⟩
  case registers => exact ⟨_, execLdMemVx_of_glyph x h, takeFault_faultedFrom ..⟩

/-! The fetch (20_memory R71, D7) -/

/-- The step of a core that is not halted and whose fetch fails. -/
theorem step_of_fetch_none {s : State} (hf : s.fault = none) (hfetch : s.fetch = none) :
    step s = .next (s.takeFault .fetchOutOfRange none s.pc) := by
  simp only [step, cycle, hf, hfetch]

/-- Settles O8: both ways the fetch can go, by the range of PC. -/
theorem fetchBigEndian : Obligations.FetchBigEndian := by
  unfold Obligations.FetchBigEndian
  refine fun s => ⟨fun hin => ⟨_, fetch_of_in s hin, wordOfBytes_toNat _ _⟩, fun hout hf => ?_⟩
  exact ⟨_, step_of_fetch_none hf (fetch_of_out s hout), takeFault_faultedFrom ..⟩

end Sys2Proof.Proofs
end

section
/-! SUPPORT. The obligations of 30_encoding on the decoder: decode and encode are inverse to each other, and the nested dispatch is the
table's. -/

namespace Sys2Proof.Proofs

/-! Decode after encode (30_encoding R90, R91, R97) -/

/-- The word of every instruction decodes to it: its fields are those of its format. -/
theorem decodeWord_encode (i : Instr) : decodeWord (encode i) = .ok i := by
  cases i with
  | cls | ret => rfl
  | jpAddr | callAddr | ldIAddr | jpV0Addr =>
    simp only [encode, decodeWord, fieldsOf_addr]
    rfl
  | seVxByte | sneVxByte | ldVxByte | addVxByte | rndVxByte | skpVx | sknpVx | ldVxDT | ldVxK | ldDTVx | ldSTVx | addIVx | ldFVx
  | ldBVx | ldMemVx | ldVxMem =>
    simp only [encode, decodeWord, fieldsOf_byte]
    rfl
  | seVxVy | sneVxVy | ldVxVy | orVxVy | andVxVy | xorVxVy | addVxVy | subVxVy | shrVx | subnVxVy | shlVx | drwVxVyNibble =>
    simp only [encode, decodeWord, fieldsOf_nibbles]
    rfl

/-- Settles O1: the bytes of a word decode as the word. -/
theorem decodeOfEncode : Obligations.DecodeOfEncode := by
  unfold Obligations.DecodeOfEncode
  intro i rest
  rw [encodeBytes, decode_bytesOfWord, decodeWord_encode]
  rfl

/-- Settles O6: each word is the word of its instruction. -/
theorem sampleWordsDecode : Obligations.SampleWordsDecode :=
  ⟨decodeWord_encode .cls, decodeWord_encode (.callAddr 0x300), decodeWord_encode (.seVxByte 0xA 0x05),
    decodeWord_encode (.addVxVy 0x1 0x2), decodeWord_encode (.drwVxVyNibble 0x1 0x2 0x5), decodeWord_encode (.skpVx 0x3),
    decodeWord_encode (.ldVxMem 0x2)⟩

/-! The fields of a word as numbers, and the word they make up (R90) -/

section
variable (w : Word)

@[simp] theorem fieldsOf_op_toNat : (fieldsOf w).op.toNat = w.toNat / 4096 := by
  have hw := w.isLt
  rw [fieldsOf, toNat_extract_eq]
  omega

@[simp] theorem fieldsOf_x_toNat : (fieldsOf w).x.toNat = w.toNat / 256 % 16 := toNat_extract_eq w 8 4

@[simp] theorem fieldsOf_y_toNat : (fieldsOf w).y.toNat = w.toNat / 16 % 16 := toNat_extract_eq w 4 4

@[simp] theorem fieldsOf_n_toNat : (fieldsOf w).n.toNat = w.toNat % 16 := by
  rw [fieldsOf, toNat_extract_eq]
  omega

@[simp] theorem fieldsOf_kk_toNat : (fieldsOf w).kk.toNat = w.toNat % 256 := by
  rw [fieldsOf, toNat_extract_eq]
  omega

@[simp] theorem fieldsOf_nnn_toNat : (fieldsOf w).nnn.toNat = w.toNat % 4096 := by
  rw [fieldsOf, toNat_extract_eq]
  omega

theorem op_append_nnn : (fieldsOf w).op ++ (fieldsOf w).nnn = w := by
  apply BitVec.eq_of_toNat_eq
  simp only [toNat_append_eq, fieldsOf_op_toNat, fieldsOf_nnn_toNat]
  omega

theorem op_append_x_kk : (fieldsOf w).op ++ (fieldsOf w).x ++ (fieldsOf w).kk = w := by
  apply BitVec.eq_of_toNat_eq
  simp only [toNat_append_eq, fieldsOf_op_toNat, fieldsOf_x_toNat, fieldsOf_kk_toNat]
  omega

theorem op_append_x_y_n : (fieldsOf w).op ++ (fieldsOf w).x ++ (fieldsOf w).y ++ (fieldsOf w).n = w := by
  apply BitVec.eq_of_toNat_eq
  simp only [toNat_append_eq, fieldsOf_op_toNat, fieldsOf_x_toNat, fieldsOf_y_toNat, fieldsOf_n_toNat]
  omega

/-- The overlapping fields agree, since the word is made up of four nibbles. -/
theorem fieldsOf_wellFormed : (fieldsOf w).wellFormed = true := by
  rw [← op_append_x_y_n w, fieldsOf_nibbles]
  simp [Fields.wellFormed]

end

/-- Settles O5. -/
theorem fieldsOfWord : Obligations.FieldsOfWord := by
  unfold Obligations.FieldsOfWord
  exact fun w => ⟨fieldsOf_op_toNat w, fieldsOf_x_toNat w, fieldsOf_y_toNat w, fieldsOf_n_toNat w, fieldsOf_kk_toNat w,
    fieldsOf_nnn_toNat w, fieldsOf_wellFormed w⟩

/-! Encode after decode (R97, R101) -/

section
variable {w : Word} {i : Instr} {f : Fields}

theorem eq_ofNat_of_toNat_eq {n k : Nat} {a : BitVec n} (h : a.toNat = k) : a = BitVec.ofNat n k := by
  rw [← h, BitVec.ofNat_toNat, BitVec.setWidth_eq]

theorem encode_of_decodeFamily0 (h : decodeFamily0 w = .ok i) : encode i = w := by
  unfold decodeFamily0 at h
  split at h
  · next hw => cases h; exact hw.symm
  · split at h
    · next hw => cases h; exact hw.symm
    · cases h

theorem encode_of_decodeFamily8 (h : decodeFamily8 f = .ok i) : encode i = 0x8#4 ++ f.x ++ f.y ++ f.n := by
  unfold decodeFamily8 at h
  split at h <;> cases h <;> next hn => rw [eq_ofNat_of_toNat_eq hn]; rfl

theorem encode_of_decodeFamilyE (h : decodeFamilyE f = .ok i) : encode i = 0xE#4 ++ f.x ++ f.kk := by
  unfold decodeFamilyE at h
  split at h <;> cases h <;> next hkk => rw [eq_ofNat_of_toNat_eq hkk]; rfl

theorem encode_of_decodeFamilyF (h : decodeFamilyF f = .ok i) : encode i = 0xF#4 ++ f.x ++ f.kk := by
  unfold decodeFamilyF at h
  split at h <;> cases h <;> next hkk => rw [eq_ofNat_of_toNat_eq hkk]; rfl

/-- The word of a decoded instruction is the decoded word. The cases are the sixteen families in the dispatch's order (`h_1` is
0x0); those of one format are taken together. -/
theorem encode_of_decodeWord (h : decodeWord w = .ok i) : encode i = w := by
  have haddr := op_append_nnn w
  have hbyte := op_append_x_kk w
  have hnibbles := op_append_x_y_n w
  unfold decodeWord at h
  dsimp only at h
  split at h
  case h_1 => exact encode_of_decodeFamily0 h
  case h_2 hop | h_3 hop | h_11 hop | h_12 hop =>
    cases h
    rw [eq_ofNat_of_toNat_eq hop] at haddr
    exact haddr
  case h_4 hop | h_5 hop | h_7 hop | h_8 hop | h_13 hop =>
    cases h
    rw [eq_ofNat_of_toNat_eq hop] at hbyte
    exact hbyte
  case h_6 hop | h_10 hop =>
    split at h
    · next hn =>
      cases h
      rw [eq_ofNat_of_toNat_eq hop, hn] at hnibbles
      exact hnibbles
    · cases h
  case h_9 hop =>
    rw [eq_ofNat_of_toNat_eq hop] at hnibbles
    exact (encode_of_decodeFamily8 h).trans hnibbles
  case h_14 hop =>
    cases h
    rw [eq_ofNat_of_toNat_eq hop] at hnibbles
    exact hnibbles
  case h_15 hop =>
    rw [eq_ofNat_of_toNat_eq hop] at hbyte
    exact (encode_of_decodeFamilyE h).trans hbyte
  case h_16 =>
    have hop : (fieldsOf w).op.toNat = 0xF := by
      have hlt := (fieldsOf w).op.isLt
      simp only [imp_false] at *
      omega
    rw [eq_ofNat_of_toNat_eq hop] at hbyte
    exact (encode_of_decodeFamilyF h).trans hbyte

theorem decodeWord_eq_ok : decodeWord w = .ok i ↔ encode i = w :=
  ⟨encode_of_decodeWord, fun h => h ▸ decodeWord_encode i⟩

end

/-- Settles O2. -/
theorem encodeOfDecode : Obligations.EncodeOfDecode := by
  unfold Obligations.EncodeOfDecode
  exact fun w i => encode_of_decodeWord

end Sys2Proof.Proofs
end

section
/-! SUPPORT. The nested dispatch against the mask and match table (30_encoding R95 to R99): the dispatch reads of a word the bits that the
mask of its family fixes, and no others. -/

namespace Sys2Proof.Proofs

/-- The bits the dispatch reads of a word whose high nibble is `op`: the high nibble and the family's secondary key (R95, R96, R98). -/
def keyMask (op : Nibble) : Word :=
  match op.toNat with
  | 0x0 => 0xFFFF
  | 0x5 | 0x8 | 0x9 => 0xF00F
  | 0xE | 0xF => 0xF0FF
  | _ => 0xF000

/-! What the table's rows have in common -/

theorem opcodeTable_mask : ∀ r ∈ opcodeTable, r.mask = keyMask (fieldsOf r.value).op := by decide

theorem opcodeTable_mask_op : ∀ r ∈ opcodeTable, r.mask.extractLsb' 12 4 = BitVec.allOnes 4 := by decide

theorem opcodeTable_value_and_mask : ∀ r ∈ opcodeTable, r.value &&& r.mask = r.value := by decide

theorem opcodeTable_value_mnemonic : ∀ r ∈ opcodeTable, (decodeWord r.value).map mnemonic = .ok r.mnemonic := by decide

theorem opcodeTable_mnemonic_injective : ∀ r ∈ opcodeTable, ∀ q ∈ opcodeTable, r.mnemonic = q.mnemonic → r = q := by decide

/-! The dispatch reads the key alone -/

section
variable {v w : Word} {f g : Fields}

/-- Two words with the same bits under a mask have the same field wherever the mask is all ones. -/
theorem extractLsb'_congr {m : Word} {lo len : Nat} (h : w &&& m = v &&& m) (hm : m.extractLsb' lo len = BitVec.allOnes len) :
    w.extractLsb' lo len = v.extractLsb' lo len := by
  have hfield := congrArg (BitVec.extractLsb' lo len) h
  simpa only [BitVec.extractLsb'_and, hm, BitVec.and_allOnes] using hfield

theorem map_mnemonic_decodeFamily8_congr (h : f.n = g.n) :
    (decodeFamily8 f).map mnemonic = (decodeFamily8 g).map mnemonic := by
  unfold decodeFamily8
  rw [h]
  split <;> rfl

theorem map_mnemonic_decodeFamilyE_congr (h : f.kk = g.kk) :
    (decodeFamilyE f).map mnemonic = (decodeFamilyE g).map mnemonic := by
  unfold decodeFamilyE
  rw [h]
  split <;> rfl

theorem map_mnemonic_decodeFamilyF_congr (h : f.kk = g.kk) :
    (decodeFamilyF f).map mnemonic = (decodeFamilyF g).map mnemonic := by
  unfold decodeFamilyF
  rw [h]
  split <;> rfl

/-- Words of one family with the same key decode to the same mnemonic, or are rejected alike. The cases with a secondary key are 0x0
(`h_1`), 0x5 and 0x9, 0x8, 0xE and 0xF. -/
theorem map_mnemonic_decodeWord_congr (hop : (fieldsOf w).op = (fieldsOf v).op)
    (hkey : w &&& keyMask (fieldsOf v).op = v &&& keyMask (fieldsOf v).op) :
    (decodeWord w).map mnemonic = (decodeWord v).map mnemonic := by
  unfold decodeWord
  dsimp only
  rw [hop]
  unfold keyMask at hkey
  split
  case h_1 h =>
    rw [h] at hkey
    have hword : w.extractLsb' 0 16 = v.extractLsb' 0 16 := extractLsb'_congr hkey rfl
    rw [BitVec.extractLsb'_eq_self, BitVec.extractLsb'_eq_self] at hword
    rw [hword]
  case h_6 h | h_10 h =>
    rw [h] at hkey
    have hn : (fieldsOf w).n = (fieldsOf v).n := extractLsb'_congr hkey rfl
    rw [hn]
    split <;> rfl
  case h_9 h =>
    rw [h] at hkey
    exact map_mnemonic_decodeFamily8_congr (extractLsb'_congr hkey rfl)
  case h_15 h =>
    rw [h] at hkey
    exact map_mnemonic_decodeFamilyE_congr (extractLsb'_congr hkey rfl)
  case h_16 =>
    have h : (fieldsOf v).op.toNat = 0xF := by
      have hlt := (fieldsOf v).op.isLt
      simp only [imp_false] at *
      omega
    rw [h] at hkey
    exact map_mnemonic_decodeFamilyF_congr (extractLsb'_congr hkey rfl)
  all_goals rfl

/-- A word that a row takes has the key of the row's own match value, and so its mnemonic. -/
theorem map_mnemonic_decodeWord_of_takes {r : Row} (hr : r ∈ opcodeTable) (h : r.takes w = true) :
    (decodeWord w).map mnemonic = .ok r.mnemonic := by
  have hkey : w &&& r.mask = r.value &&& r.mask := by
    rw [opcodeTable_value_and_mask r hr]
    exact eq_of_beq h
  have hop : (fieldsOf w).op = (fieldsOf r.value).op := extractLsb'_congr hkey (opcodeTable_mask_op r hr)
  rw [opcodeTable_mask r hr] at hkey
  exact (map_mnemonic_decodeWord_congr hop hkey).trans (opcodeTable_value_mnemonic r hr)

open Laws.TableRow in
/-- The family `TableRow` of the model's laws, over all instructions. -/
theorem tableRow_statement (i : Instr) : Statement i := by
  cases i
  exacts [cls, ret, jpAddr _, callAddr _, seVxByte _ _, sneVxByte _ _, seVxVy _ _, ldVxByte _ _, addVxByte _ _, ldVxVy _ _,
    orVxVy _ _, andVxVy _ _, xorVxVy _ _, addVxVy _ _, subVxVy _ _, shrVx _ _, subnVxVy _ _, shlVx _ _, sneVxVy _ _, ldIAddr _,
    jpV0Addr _, rndVxByte _ _, drwVxVyNibble _ _ _, skpVx _, sknpVx _, ldVxDT _, ldVxK _, ldDTVx _, ldSTVx _, addIVx _, ldFVx _,
    ldBVx _, ldMemVx _, ldVxMem _]

theorem exists_row_of_decodeWord {i : Instr} (h : decodeWord w = .ok i) :
    ∃ r ∈ opcodeTable, r.takes w = true ∧ r.mnemonic = mnemonic i := by
  obtain ⟨r, hr, hname, htakes⟩ := tableRow_statement i
  exact ⟨r, hr, encode_of_decodeWord h ▸ htakes, hname⟩

/-- The dispatch rejects a word that no row takes. -/
theorem decodeWord_error_of_not_takes (h : ∀ r ∈ opcodeTable, r.takes w = false) : ∃ e, decodeWord w = .error e := by
  rcases hd : decodeWord w with e | i
  · exact ⟨e, rfl⟩
  · obtain ⟨r, hr, htakes, -⟩ := exists_row_of_decodeWord hd
    exact absurd htakes (Bool.eq_false_iff.1 (h r hr))

end

/-- Settles O3: a row that takes a word gives it its mnemonic, so a rejected word has no row and no word has two. -/
theorem decodeAgreesWithTable : Obligations.DecodeAgreesWithTable := by
  unfold Obligations.DecodeAgreesWithTable
  refine fun w => ⟨fun i => exists_row_of_decodeWord, fun e h r hr => ?rejected, fun r hr q hq hrw hqw => ?unique⟩
  case rejected =>
    by_contra htakes
    have hname := map_mnemonic_decodeWord_of_takes hr (Bool.eq_true_of_not_eq_false htakes)
    rw [h] at hname
    cases hname
  case unique =>
    have hname := (map_mnemonic_decodeWord_of_takes hr hrw).symm.trans (map_mnemonic_decodeWord_of_takes hq hqw)
    exact opcodeTable_mnemonic_injective r hr q hq (Except.ok.inj hname)

end Sys2Proof.Proofs
end

section
/-! SUPPORT. The obligations of 30_encoding on the step (R110 to R117): the decoded instruction and its end, the words that fault, the
halted core and the three results. -/

namespace Sys2Proof.Proofs

open Sys2Proof.Machine Sys2Proof.Safety

variable {W H : Nat} {w : Word} {i : Instr} {s t : State} {r : FaultRecord}

/-! Every state has a next one (R110) -/

theorem execWith_next (p : Config.Params) (i : Instr) (s : State.Sized W H) : ∃ t, execWith p i s = .next t := by
  rcases execWith_cases p i s with ⟨code, info, -, h⟩ | ⟨t, h, -⟩
  · exact ⟨_, h⟩
  · exact ⟨t, h⟩

theorem stepWith_next (p : Config.Params) (s : State.Sized W H) : ∃ t, stepWith p s = .next t := by
  obtain ⟨t, h, -⟩ := stepWith_move p s
  exact ⟨t, h⟩

/-- Settles O21: this hardware's step and execution are those at the defaults. -/
theorem stepAlwaysAnswers : Obligations.StepAlwaysAnswers := by
  unfold Obligations.StepAlwaysAnswers
  refine ⟨fun s => ?_, fun i s => ?_, fun W H p s => stepWith_next p s, fun W H p i s => execWith_next p i s⟩
  · rw [← stepWith_default]
    exact stepWith_next Config.params s
  · rw [← execWith_default]
    exact execWith_next Config.params i s

/-! A word that decodes (R110, R113) -/

theorem decodeWord_of_decode {b0 b1 : Byte} {rest : List Byte} (h : decode [b0, b1] = .ok (i, rest)) :
    decodeWord (wordOfBytes b0 b1) = .ok i := by
  rw [decode] at h
  rcases hd : decodeWord (wordOfBytes b0 b1) with e | j <;> rw [hd] at h <;> cases h
  rfl

/-- The cycle of a core that is not halted, on two bytes at PC that decode. -/
theorem cycle_of_decode_bytes (run : Instr → State.Sized W H → Result W H) {s : State.Sized W H} (hf : s.fault = none)
    (hpc : s.pc.toNat + 1 ≤ 0xFFF) (h : decode [s.readByte s.pc.toNat, s.readByte (s.pc.toNat + 1)] = .ok (i, [])) :
    cycle run s = finishStep (run i s) :=
  cycle_of_decode hf (fetch_of_in s hpc) (decodeWord_of_decode h)

/-- Settles O7: the cycle on two bytes that decode, at any values of the parameters, and both ways the end of a step can go. -/
theorem stepRunsDecoded : Obligations.StepRunsDecoded := by
  unfold Obligations.StepRunsDecoded
  refine ⟨fun s i hf hpc h => ?_, fun W H p s i hf hpc h => cycle_of_decode_bytes (execWith p) hf hpc h, execWith_default,
    stepWith_default⟩
  have hstep : step s = finishStep (exec i s) := cycle_of_decode_bytes exec hf hpc h
  refine ⟨hstep, fun u hu hnone => ?completed, fun u r hu hfault => ?faulted⟩
  case completed => rw [hstep, hu, finishStep, finish_of_none u hnone]
  case faulted => rw [hstep, hu, finishStep, finish_of_fault u hfault]

/-! A word that does not decode (R98, R99) -/

theorem step_of_decodeWord_error {e : DecodeReject} (hf : s.fault = none) (hfetch : s.fetch = some w)
    (hd : decodeWord w = .error e) : step s = .next (s.takeFault .decode (some w) w) := by
  simp only [step, cycle, hf, hfetch, runWord, hd]

theorem decodeWord_of_op_zero (h : w.toNat / 4096 = 0) : decodeWord w = decodeFamily0 w := by
  simp only [decodeWord, fieldsOf_op_toNat, h]

/-- Settles O4: a word decodes to CLS or RET exactly when it is its word, and the rest of the family is rejected. -/
theorem familyZeroWholeWord : Obligations.FamilyZeroWholeWord := by
  unfold Obligations.FamilyZeroWholeWord
  refine fun w hop => ⟨decodeWord_eq_ok.trans eq_comm, decodeWord_eq_ok.trans eq_comm, fun hcls hret s hf hfetch => ?_⟩
  have hreject : decodeWord w = .error .family0 := by
    rw [decodeWord_of_op_zero hop, decodeFamily0, if_neg hcls, if_neg hret]
  exact ⟨_, step_of_decodeWord_error hf hfetch hreject, takeFault_faultedFrom ..⟩

/-! The halted core (R117, D11) -/

theorem step_of_fault (h : s.fault = some r) : step s = .next s.silence := by
  simp only [step, cycle, h]

/-- Settles O9: a word no row takes is rejected, and the state of a fault is silent already, so a halted step gives it again. -/
theorem unmatchedWordFaults : Obligations.UnmatchedWordFaults := by
  unfold Obligations.UnmatchedWordFaults
  intro s w hf hfetch hrows
  obtain ⟨e, hd⟩ := decodeWord_error_of_not_takes hrows
  exact ⟨_, step_of_decodeWord_error hf hfetch hd, takeFault_faultedFrom .., step_of_fault rfl⟩

theorem stepResult_of_fault (hstep : step s = .next t) (h : t.fault = some r) : stepResult s = .faulted r := by
  rw [stepResult_eq, stateAfter_of_next hstep, h]

/-- Of the host's operations only reset() clears the fault. -/
theorem hostCall_fault_of_halted {c : HostCall} (h : s.fault = some r) (hc : c ≠ .reset) :
    (hostCall c s).2.fault = some r := by
  unfold hostCall
  cases c with
  | reset => exact absurd rfl hc
  | loadProgram bytes =>
    rcases hostCallBy_loadProgram_cases step Config.glyphTable bytes s with ⟨-, hcall⟩ | ⟨-, hcall⟩ <;> rw [hcall] <;> exact h
  | setKey index pressed =>
    rcases hostCallBy_setKey_cases step Config.glyphTable index pressed s with ⟨-, -, hcall⟩ | ⟨-, hcall⟩ <;> rw [hcall] <;>
      exact h
  | step =>
    rw [hostCallBy, stateAfterBy_of_next (step_of_fault h)]
    exact h
  | getPixel index =>
    rw [hostCallBy_getPixel_state]
    exact h
  | delayTimerExpired | soundTimerExpired | readState => exact h

/-- Settles O10. -/
theorem haltedUntilReset : Obligations.HaltedUntilReset := by
  unfold Obligations.HaltedUntilReset
  intro s r h
  have hstep := step_of_fault h
  exact ⟨⟨s.silence, hstep, rfl, rfl⟩, stepResult_of_fault hstep h, fun c hc => hostCall_fault_of_halted h hc, rfl⟩

/-! The three results (R116, D17) -/

theorem stepResult_of_completed (hstep : step s = .next t) (h : t.fault = none) :
    stepResult s = if s.waiting then .blocked else .ok := by
  rw [stepResult_eq, stateAfter_of_next hstep, h]

theorem waiting_of_nextInstr_ldVxK {s : State.Sized W H} {x : Nibble} (h : s.nextInstr = some (.ldVxK x)) :
    s.waiting = s.leastKey.isNone := by
  rw [State.Sized.waiting, h]

theorem waiting_of_nextInstr_ne {s : State.Sized W H} (h : ∀ x, s.nextInstr ≠ some (.ldVxK x)) : s.waiting = false := by
  unfold State.Sized.waiting
  split
  · next x hx => exact absurd hx (h x)
  · rfl

theorem leastKey_isNone {s : State.Sized W H} : s.leastKey.isNone = true ↔ ∀ k : Fin 16, s.keys[k] = false := by
  rw [Option.isNone_iff_eq_none, leastKey_eq_none]
  constructor
  · intro h k
    exact (keyPressed_of_lt s k k.isLt).symm.trans (h k)
  · intro h k
    by_cases hk : k < 16
    · exact (keyPressed_of_lt s k hk).trans (h ⟨k, hk⟩)
    · exact List.getD_eq_default _ _ (by simpa using hk)

/-- Settles O14: a completed step is Blocked exactly where the core waits for a key. -/
theorem stepResults : Obligations.StepResults := by
  unfold Obligations.StepResults
  refine fun s t hstep => ⟨fun r => stepResult_of_fault hstep, fun h x hx hkeys => ?blocked, fun h x k hx hkey => ?pressed,
    fun h hne => ?other⟩
  all_goals rw [stepResult_of_completed hstep h]
  case blocked =>
    rw [waiting_of_nextInstr_ldVxK hx, leastKey_isNone.2 hkeys]
    rfl
  case pressed =>
    have hsome : s.leastKey.isNone ≠ true := fun hnone => by simp [leastKey_isNone.1 hnone k] at hkey
    rw [waiting_of_nextInstr_ldVxK hx, if_neg hsome]
  case other =>
    rw [waiting_of_nextInstr_ne hne]
    rfl

end Sys2Proof.Proofs
end

section
/-! SUPPORT. No instruction but `Cxkk` reads the position of the random source (30_encoding R118, 41_alu R196): moving it commutes with
every operation of the others, and so with their execution. -/

namespace Sys2Proof.Proofs

open Sys2Proof.Machine

variable {W H : Nat}

/-- The state with the random source at another position. -/
def withDraws (k : Nat) (s : State.Sized W H) : State.Sized W H := { s with draws := k }

/-- The answer with the random source of its next state at another position. -/
def answerWithDraws (k : Nat) : Result W H → Result W H
  | .next t => .next (withDraws k t)
  | .fault r => .fault r
  | .refused r => .refused r

section
variable (k : Nat) (s : State.Sized W H)

theorem withDraws_pc : (withDraws k s).pc = s.pc := rfl

theorem withDraws_getV (x : Nibble) : (withDraws k s).getV x = s.getV x := rfl

theorem withDraws_leastKey : (withDraws k s).leastKey = s.leastKey := rfl

theorem withDraws_rangeFault (count : Nat) : (withDraws k s).rangeFault count = s.rangeFault count := rfl

theorem withDraws_storeFault (count : Nat) : (withDraws k s).storeFault count = s.storeFault count := rfl

theorem withDraws_drawFault (policy : Config.VerticalPolicy) (ys : Byte) (n : Nat) :
    (withDraws k s).drawFault policy ys n = s.drawFault policy ys n := rfl

theorem withDraws_push (e : Word) : (withDraws k s).push e = (s.push e).map (withDraws k) := by
  simp only [State.Sized.push, apply_dite (Option.map (withDraws k))]
  rfl

theorem withDraws_pop : (withDraws k s).pop = s.pop.map (Prod.map id (withDraws k)) := by
  simp only [State.Sized.pop, apply_dite (Option.map (Prod.map id (withDraws k)))]
  rfl

/-- Every execution but that of `Cxkk` commutes with moving the random source. The named cases are the instructions with a check or a
choice, which goes the same way in both states. -/
theorem execWith_withDraws (p : Config.Params) {i : Instr} (hi : ∀ x kk, i ≠ .rndVxByte x kk) :
    execWith p i (withDraws k s) = answerWithDraws k (execWith p i s) := by
  cases i with
  | rndVxByte x kk => exact absurd rfl (hi x kk)
  | ret =>
    simp only [execWith, execRet, withDraws_pop]
    rcases s.pop with _ | ⟨e, t⟩ <;> rfl
  | callAddr nnn =>
    simp only [execWith, execCallAddr, withDraws_pc, withDraws_push]
    rcases s.push s.pc with _ | t <;> rfl
  | skpVx | sknpVx | addIVx =>
    simp only [execWith, execSkpVx, execSknpVx, execAddIVx, apply_ite (answerWithDraws k)]
    rfl
  | ldVxK x =>
    simp only [execWith, execLdVxK, withDraws_leastKey]
    rcases s.leastKey with _ | key <;> rfl
  | ldBVx x =>
    simp only [execWith, execLdBVx, withDraws_storeFault]
    rcases s.storeFault 3 with _ | ⟨code, info⟩ <;> rfl
  | ldMemVx x =>
    simp only [execWith, execLdMemVx, withDraws_storeFault]
    rcases s.storeFault (regCount x) with _ | ⟨code, info⟩ <;> rfl
  | ldVxMem x =>
    simp only [execWith, execLdVxMem, withDraws_rangeFault]
    rcases s.rangeFault (regCount x) with _ | ⟨code, info⟩ <;> rfl
  | drwVxVyNibble x y n =>
    simp only [execWith, execDrwWith, withDraws_getV, withDraws_drawFault]
    rcases s.drawFault p.drawVertical (s.getV y) n.toNat with _ | ⟨code, info⟩ <;> rfl
  | _ => rfl

end

/-- Settles O24: the second execution is the first one moved. -/
theorem onlyRndReadsRandom : Obligations.OnlyRndReadsRandom := by
  unfold Obligations.OnlyRndReadsRandom
  intro i s t k hi hexec
  rw [← execWith_default] at hexec ⊢
  exact (execWith_withDraws k s Config.params hi).trans (congrArg (answerWithDraws k) hexec)

end Sys2Proof.Proofs
end

section
/-! SUPPORT. The obligations of 40_control_flow: the bounds of PC, calls and returns, jumps and skips. -/

namespace Sys2Proof.Proofs

open Sys2Proof.Machine Sys2Proof.Safety

/-- Settles O18: a step is one of the moves, and a PC that was fetched from bounds the next one and the entry a call pushes. -/
theorem stepKeepsPcBounded : Obligations.StepKeepsPcBounded := by
  unfold Obligations.StepKeepsPcBounded
  intro s t hbounded hstep
  exact (stepMove_of_step hstep).pcBounded hbounded

section
variable {W H : Nat} (s : State.Sized W H)

/-! Calls and returns (40_control_flow R131, R133) -/

theorem frame_trans {c : MayChange} {s t u : State.Sized W H} (hfirst : Frame c s t) (hsecond : Frame c t u) : Frame c s u := by
  obtain ⟨hv, hi, hstack, hdt, hst, hfb, hdraws, hmem, hkeys, htone, hfault⟩ := hfirst
  obtain ⟨hv', hi', hstack', hdt', hst', hfb', hdraws', hmem', hkeys', htone', hfault'⟩ := hsecond
  exact ⟨fun r hr => (hv' r hr).trans (hv r hr), fun h => (hi' h).trans (hi h),
    fun h => ⟨(hstack' h).1.trans (hstack h).1, (hstack' h).2.trans (hstack h).2⟩, fun h => (hdt' h).trans (hdt h),
    fun h => (hst' h).trans (hst h), fun h => (hfb' h).trans (hfb h), fun h => (hdraws' h).trans (hdraws h),
    fun a ha => (hmem' a ha).trans (hmem a ha), hkeys'.trans hkeys, htone'.trans htone, hfault'.trans hfault⟩

theorem execRet_of_entry (h : 0 < s.sp.val) :
    ∃ t, execRet s = .next t ∧ t.pc = s.stack[s.sp.val - 1]'(by omega) + 2 ∧ t.sp.val = s.sp.val - 1 ∧ t.stack = s.stack ∧
      Frame { stack := true } s t := by
  obtain ⟨t, hpop, hsp, ht⟩ := pop_of_entry s h
  have hframe : Frame { stack := true } s t := by rw [ht]; exact frame_stack s t.sp s.stack
  have hstack : t.stack = s.stack := by rw [ht]
  exact ⟨t.setPc (s.stack[s.sp.val - 1] + 2), by simp only [execRet, hpop], rfl, hsp, hstack, frame_setPc hframe _⟩

theorem execRet_of_empty (h : s.sp.val = 0) :
    execRet s = .next (s.takeFault .stackUnderflow (some (encode .ret)) 0) := by
  simp only [execRet, pop_of_empty s h, raise_eq]

theorem execCallAddr_of_room (nnn : Addr) (h : s.sp.val < 16) :
    ∃ t, execCallAddr nnn s = .next t ∧ t.stack = s.stack.set s.sp.val s.pc h ∧ t.sp.val = s.sp.val + 1 ∧
      t.pc = addrWord nnn ∧ Frame { stack := true } s t := by
  obtain ⟨t, hpush, hsp, hstack, ht⟩ := push_of_room s s.pc h
  have hframe : Frame { stack := true } s t := by rw [ht]; exact frame_stack s t.sp t.stack
  exact ⟨t.setPc (addrWord nnn), by simp only [execCallAddr, hpush], hstack, hsp, rfl, frame_setPc hframe _⟩

theorem execCallAddr_of_full (nnn : Addr) (h : s.sp.val = 16) :
    execCallAddr nnn s = .next (s.takeFault .stackOverflow (some (encode (.callAddr nnn))) (addrWord nnn)) := by
  simp only [execCallAddr, push_of_full s s.pc h, raise_eq]

/-! The target of `Bnnn` (R138) -/

/-- The largest sum is 0xFFF + 0xFF, so it is not reduced. -/
theorem addrWord_add_byteWord_toNat (nnn : Addr) (b : Byte) : (addrWord nnn + byteWord b).toNat = nnn.toNat + b.toNat := by
  have hlt : (addrWord nnn).toNat + (byteWord b).toNat < 2 ^ 16 :=
    (Nat.add_le_add (addrWord_le nnn) (byteWord_le b)).trans_lt (by decide)
  rw [BitVec.toNat_add_of_lt hlt, addrWord_toNat, byteWord_toNat]

/-! The two kinds of skip (R134 to R137, R139, R140) -/

/-- An execution that ends in a skip on a condition. -/
theorem skips_of_iff {r : Result W H} {c : Bool} {P : Prop} [Decidable P] (hr : r = .next (s.skipIf c)) (hc : c = true ↔ P) :
    ∃ t, r = .next t ∧ t.pc = (if P then s.pc + 4 else s.pc + 2) ∧ Frame {} s t :=
  ⟨_, hr, if_congr hc rfl rfl, frame_setPc (frame_refl s) _⟩

/-- An execution that ends in a skip on the negation of a condition. -/
theorem skips_of_iff_not {r : Result W H} {c : Bool} {P : Prop} [Decidable P] (hr : r = .next (s.skipIf c))
    (hc : c = true ↔ ¬P) : ∃ t, r = .next t ∧ t.pc = (if P then s.pc + 2 else s.pc + 4) ∧ Frame {} s t := by
  obtain ⟨t, ht, hpc, hframe⟩ := skips_of_iff s hr hc
  exact ⟨t, ht, hpc.trans (ite_not P _ _), hframe⟩

variable (x : Nibble)

theorem execSkpVx_of_key (h : (s.getV x).toNat < 16) : execSkpVx x s = .next (s.skipIf (s.keys[(s.getV x).toNat]'h)) := by
  rw [execSkpVx, if_neg (by omega), keyPressed_of_lt s _ h]

theorem execSknpVx_of_key (h : (s.getV x).toNat < 16) :
    execSknpVx x s = .next (s.skipIf !(s.keys[(s.getV x).toNat]'h)) := by
  rw [execSknpVx, if_neg (by omega), keyPressed_of_lt s _ h]

theorem execSkpVx_of_no_key (h : 15 < (s.getV x).toNat) :
    execSkpVx x s = .next (s.takeFault .keyIndex (some (encode (.skpVx x))) (byteWord (s.getV x))) := by
  rw [execSkpVx, if_pos h, raise_eq]

theorem execSknpVx_of_no_key (h : 15 < (s.getV x).toNat) :
    execSknpVx x s = .next (s.takeFault .keyIndex (some (encode (.sknpVx x))) (byteWord (s.getV x))) := by
  rw [execSknpVx, if_pos h, raise_eq]

end

/-- Settles O25: both ways the pop can go. -/
theorem returnPops : Obligations.ReturnPops := by
  unfold Obligations.ReturnPops
  refine fun s => ⟨decodeWord_encode .ret, fun h => execRet_of_entry s h, fun h => ?_⟩
  exact ⟨_, execRet_of_empty s h, takeFault_faultedFrom ..⟩

/-- Settles O27: both ways the push can go. -/
theorem callPushes : Obligations.CallPushes := by
  unfold Obligations.CallPushes
  refine fun nnn s => ⟨decodeWord_encode (.callAddr nnn), fun h => ?room, fun h => ?full⟩
  case room =>
    obtain ⟨t, hexec, hstack, hsp, hpc, hframe⟩ := execCallAddr_of_room s nnn h
    refine ⟨t, hexec, ?_, fun j hj hne => ?_, hsp, hpc ▸ addrWord_toNat nnn, hframe⟩
    · simp only [hstack, Vector.getElem_set_self]
    · simp only [hstack, Vector.getElem_set_ne h hj hne.symm]
  case full =>
    exact ⟨_, execCallAddr_of_full s nnn h, addrWord nnn, addrWord_toNat nnn, takeFault_faultedFrom ..⟩

/-- Settles O28: the return pops the entry that the call pushed. -/
theorem callThenReturn : Obligations.CallThenReturn := by
  unfold Obligations.CallThenReturn
  intro nnn s h
  obtain ⟨t, hcall, hstack, hsp, -, hframe⟩ := execCallAddr_of_room s nnn h
  obtain ⟨u, hret, hpc', hsp', -, hframe'⟩ := execRet_of_entry t (by omega)
  refine ⟨t, u, hcall, hret, ?_, Fin.ext (by omega), frame_trans hframe hframe'⟩
  simp only [hpc', hstack, hsp, Nat.add_sub_cancel, Vector.getElem_set_self]

/-- Settles O31: the sum of address and offset fits in 16 bits. -/
theorem jumpWithOffset : Obligations.JumpWithOffset := by
  unfold Obligations.JumpWithOffset
  exact fun nnn s => ⟨decodeWord_encode (.jpV0Addr nnn), _, rfl, addrWord_add_byteWord_toNat nnn (s.getV 0),
    frame_setPc (frame_refl s) _⟩

/-- Settles O32: both skips on a key that exists, and their fault where there is none. -/
theorem skipsOnKey : Obligations.SkipsOnKey := by
  unfold Obligations.SkipsOnKey
  refine fun x s => ⟨decodeWord_encode (.skpVx x), decodeWord_encode (.sknpVx x), fun h => ⟨?skp, ?sknp⟩, fun h => ?fault⟩
  case skp => exact skips_of_iff s (execSkpVx_of_key s x h) Iff.rfl
  case sknp => exact skips_of_iff_not s (execSknpVx_of_key s x h) Bool.not_iff_not
  case fault =>
    exact ⟨byteWord (s.getV x), byteWord_toNat _, ⟨_, execSkpVx_of_no_key s x h, takeFault_faultedFrom ..⟩,
      ⟨_, execSknpVx_of_no_key s x h, takeFault_faultedFrom ..⟩⟩

/-- Settles O26: the jump's target is nnn as a number. -/
theorem jumpLands : Obligations.JumpLands := by
  unfold Obligations.JumpLands
  exact fun nnn s => ⟨decodeWord_encode (.jpAddr nnn), _, rfl, addrWord_toNat nnn, frame_setPc (frame_refl s) _⟩

/-- Settles O29: a skip on equality and one on its negation. -/
theorem skipsOnByte : Obligations.SkipsOnByte := by
  unfold Obligations.SkipsOnByte
  exact fun x kk s => ⟨decodeWord_encode (.seVxByte x kk), decodeWord_encode (.sneVxByte x kk),
    skips_of_iff s rfl beq_iff_eq, skips_of_iff_not s rfl bne_iff_ne⟩

/-- Settles O30: a skip on equality and one on its negation. -/
theorem skipsOnRegisters : Obligations.SkipsOnRegisters := by
  unfold Obligations.SkipsOnRegisters
  exact fun x y s => ⟨decodeWord_encode (.seVxVy x y), decodeWord_encode (.sneVxVy x y),
    skips_of_iff s rfl beq_iff_eq, skips_of_iff_not s rfl bne_iff_ne⟩

end Sys2Proof.Proofs
end

section
/-! SUPPORT. The obligations of 41_alu: the values of results and flags as numbers, the two shapes of a write back, and the
instructions. -/

namespace Sys2Proof.Proofs

open Sys2Proof.Machine Sys2Proof.Safety

/-! Results and flags as numbers (R177 to R181) -/

theorem bit_toNat (P : Prop) [Decidable P] : (bit (decide P)).toNat = if P then 1 else 0 := by
  by_cases h : P <;> simp [bit, h]

theorem carryFlag_toNat (a b : Byte) : (carryFlag a b).toNat = if a.toNat + b.toNat > 255 then 1 else 0 := bit_toNat _

theorem aboveFlag_toNat (a b : Byte) : (aboveFlag a b).toNat = if a.toNat > b.toNat then 1 else 0 := bit_toNat _

/-- Subtraction of numbers stops at 0 as the instruction's does. -/
theorem subSaturating_toNat (a b : Byte) : (subSaturating a b).toNat = a.toNat - b.toNat := by
  rw [subSaturating]
  split
  case isTrue h => exact BitVec.toNat_sub_of_le (BitVec.le_def.2 h.le)
  case isFalse h => exact (Nat.sub_eq_zero_of_le (not_lt.1 h)).symm

theorem shiftRight_one_toNat (a : Byte) : (a >>> 1).toNat = a.toNat / 2 := by
  rw [BitVec.toNat_ushiftRight, Nat.shiftRight_eq_div_pow, pow_one]

theorem shiftLeft_one_toNat (a : Byte) : (a <<< 1).toNat = a.toNat * 2 % 256 := by
  rw [BitVec.toNat_shiftLeft, Nat.shiftLeft_eq, pow_one]

theorem shrFlag_toNat (a : Byte) : (shrFlag a).toNat = a.toNat % 2 :=
  (BitVec.toNat_and a 1).trans (Nat.and_one_is_mod _)

/-- Both values of SHL_VF_RAW tell the top bit: in place, or moved to bit 0. -/
theorem shlFlag_toNat (raw : Bool) (a : Byte) :
    (shlFlag raw a).toNat = if a.toNat ≥ 128 then (if raw then 0x80 else 1) else 0 := by
  cases raw with
  | true =>
    have hmask : shlFlag true a = if a.getLsbD 7 then 0x80 else 0 := BitVec.and_twoPow a 7
    have htop : a.getLsbD 7 = decide (a.toNat ≥ 128) := BitVec.msb_eq_decide a
    simp only [hmask, htop, decide_eq_true_eq, apply_ite BitVec.toNat]
    rfl
  | false =>
    have hshift : (shlFlag false a).toNat = a.toNat / 128 := by
      rw [shlFlag, if_neg Bool.false_ne_true, BitVec.toNat_ushiftRight, Nat.shiftRight_eq_div_pow]
    have hlt := a.isLt
    rw [hshift, if_neg Bool.false_ne_true]
    split <;> omega

/-! The two shapes of a completed execution: a result alone, or a result and then a flag -/

section
variable {W H : Nat} (s : State.Sized W H) (x : Nibble)

theorem writeBack_getV_same (b : Byte) : (s.writeBack x b).getV x = b := by rw [writeBack_getV, if_pos rfl]

/-- An execution that ends in a write back of a result given bit by bit, with no flag. -/
theorem writesBits {r : Result W H} {b : Byte} {bits : Nat → Bool} (hr : r = .next (s.writeBack x b))
    (hbits : ∀ j, b.getLsbD j = bits j) :
    ∃ t, r = .next t ∧ (∀ j, j < 8 → (t.getV x).getLsbD j = bits j) ∧ t.pc = s.pc + 2 ∧ Frame { regs := [x] } s t := by
  refine ⟨_, hr, fun j _ => ?_, rfl, (completes_writeBack s x b).frame⟩
  rw [writeBack_getV_same, hbits]

/-- An execution that ends in a write back of a result and then of a flag: where x = 0xF the flag is what stays (00_scope R14). -/
theorem writesFlag {r : Result W H} {b f : Byte} {result flag : Nat} (hr : r = .next (s.writeBackFlag x b f))
    (hresult : b.toNat = result) (hflag : f.toNat = flag) :
    ∃ t, r = .next t ∧ (x ≠ 0xF → (t.getV x).toNat = result) ∧ (t.getV 0xF).toNat = flag ∧ t.pc = s.pc + 2 ∧
      Frame { regs := [x, 0xF] } s t := by
  refine ⟨_, hr, fun hx => ?result, ?flag, rfl, (completes_writeBackFlag s x b f).frame⟩
  case result => rw [writeBackFlag_getV, if_neg hx, if_pos rfl, hresult]
  case flag => rw [writeBackFlag_getV, if_pos rfl, hflag]

/-- `8xyE` at either value of SHL_VF_RAW. -/
theorem execShlVxWith_writesFlag (raw : Bool) (y : Nibble) :
    ∃ t, execShlVxWith raw x y s = .next t ∧ (x ≠ 0xF → (t.getV x).toNat = (s.getV x).toNat * 2 % 256) ∧
      (t.getV 0xF).toNat = (if (s.getV x).toNat ≥ 128 then (if raw then 0x80 else 1) else 0) ∧ t.pc = s.pc + 2 ∧
      Frame { regs := [x, 0xF] } s t :=
  writesFlag s x rfl (shiftLeft_one_toNat _) (shlFlag_toNat raw _)

end

/-- Settles O34: the sum of bytes is the sum of numbers modulo 256, and the write back has no flag. -/
theorem addImmediate : Obligations.AddImmediate := by
  unfold Obligations.AddImmediate
  refine fun x kk s => ⟨decodeWord_encode (.addVxByte x kk), _, rfl, ?_, rfl, (completes_writeBack s x _).frame⟩
  rw [writeBack_getV_same, BitVec.toNat_add]

/-- Settles O35: three write backs of a result given bit by bit. -/
theorem bitwiseLogic : Obligations.BitwiseLogic := by
  unfold Obligations.BitwiseLogic
  exact fun x y s => ⟨decodeWord_encode (.orVxVy x y), decodeWord_encode (.andVxVy x y), decodeWord_encode (.xorVxVy x y),
    writesBits s x rfl fun _ => BitVec.getLsbD_or, writesBits s x rfl fun _ => BitVec.getLsbD_and,
    writesBits s x rfl fun _ => BitVec.getLsbD_xor⟩

/-- Settles O36: the sum modulo 256, then the carry. -/
theorem addWithCarry : Obligations.AddWithCarry := by
  unfold Obligations.AddWithCarry
  exact fun x y s => ⟨decodeWord_encode (.addVxVy x y), writesFlag s x rfl (BitVec.toNat_add ..) (carryFlag_toNat ..)⟩

/-- Settles O37: the same result and flag, with the operands in either order. -/
theorem subtractsSaturate : Obligations.SubtractsSaturate := by
  unfold Obligations.SubtractsSaturate
  exact fun x y s => ⟨decodeWord_encode (.subVxVy x y), decodeWord_encode (.subnVxVy x y),
    writesFlag s x rfl (subSaturating_toNat ..) (aboveFlag_toNat ..),
    writesFlag s x rfl (subSaturating_toNat ..) (aboveFlag_toNat ..)⟩

/-- Settles O38: the half, then the bit shifted out. -/
theorem shiftRight : Obligations.ShiftRight := by
  unfold Obligations.ShiftRight
  exact fun x y s => ⟨decodeWord_encode (.shrVx x y), writesFlag s x rfl (shiftRight_one_toNat _) (shrFlag_toNat _)⟩

/-- Settles O39: this hardware is the case SHL_VF_RAW = true. -/
theorem shiftLeft : Obligations.ShiftLeft := by
  unfold Obligations.ShiftLeft
  exact ⟨fun x y s => ⟨decodeWord_encode (.shlVx x y), execShlVxWith_writesFlag s x true y⟩,
    fun _ _ p x y s => execShlVxWith_writesFlag s x p.shlVfRaw y⟩

/-- Settles O40: the byte is taken before the mask is looked at. -/
theorem randomUnderMask : Obligations.RandomUnderMask := by
  unfold Obligations.RandomUnderMask
  refine fun x kk s => ⟨decodeWord_encode (.rndVxByte x kk), _, rfl, rfl, fun j _ => ?_, rfl, frame_drawRandom_setV s x _⟩
  rw [writeBack_getV_same, BitVec.getLsbD_and]
  rfl

/-- Settles O33: two write backs with no flag. -/
theorem registerLoads : Obligations.RegisterLoads := by
  unfold Obligations.RegisterLoads
  exact fun x y kk s => ⟨decodeWord_encode (.ldVxByte x kk), decodeWord_encode (.ldVxVy x y),
    ⟨_, rfl, writeBack_getV_same s x kk, rfl, (completes_writeBack s x kk).frame⟩,
    ⟨_, rfl, writeBack_getV_same s x _, rfl, (completes_writeBack s x _).frame⟩⟩

end Sys2Proof.Proofs
end

section
/-! SUPPORT. The obligations of 42_memory_timers on I, the timers and the key wait (R211 to R217). -/

namespace Sys2Proof.Proofs

open Sys2Proof.Machine Sys2Proof.Safety

/-! The address register (R211, R216, R217) -/

section
variable {W H : Nat} (s : State.Sized W H)

/-- `Annn` at either value of ANNN_EXTRA_ADVANCE. -/
theorem execLdIAddrWith_loads (extra : Bool) (nnn : Addr) :
    ∃ t, execLdIAddrWith extra nnn s = .next t ∧ t.i.toNat = nnn.toNat ∧
      t.pc = (if extra then s.pc + 4 else s.pc + 2) ∧ Frame { i := true } s t :=
  ⟨_, rfl, addrWord_toNat nnn, rfl, frame_setPc (frame_setI s _) _⟩

theorem execAddIVx_of_le (x : Nibble) (h : s.i.toNat + (s.getV x).toNat ≤ 0xFFFF) :
    execAddIVx x s = .next (s.setI (s.i + byteWord (s.getV x))).advance :=
  if_neg (not_lt.2 h)

theorem execAddIVx_of_gt (x : Nibble) (h : s.i.toNat + (s.getV x).toNat > 0xFFFF) :
    execAddIVx x s = .next (s.takeFault .indexOverflow (some (encode (.addIVx x))) (byteWord (s.getV x))) :=
  if_pos h

end

theorem add_byteWord_toNat {a : Word} {b : Byte} (h : a.toNat + b.toNat ≤ 0xFFFF) :
    (a + byteWord b).toNat = a.toNat + b.toNat := by
  have hlt : a.toNat + (byteWord b).toNat < 2 ^ 16 := by
    rw [byteWord_toNat]
    omega
  rw [BitVec.toNat_add_of_lt hlt, byteWord_toNat]

/-- The largest glyph address is 5 * 0xFF, so it is not reduced. -/
theorem glyphAddr_toNat (d : Byte) : (glyphAddr d).toNat = 5 * d.toNat := by
  have hlt := d.isLt
  rw [glyphAddr, Nat.zero_add, BitVec.toNat_ofNat, Nat.mod_eq_of_lt (by omega)]

/-- Settles O41: this hardware is the case ANNN_EXTRA_ADVANCE = true. -/
theorem loadAddressRegister : Obligations.LoadAddressRegister := by
  unfold Obligations.LoadAddressRegister
  exact ⟨fun nnn s => ⟨decodeWord_encode (.ldIAddr nnn), execLdIAddrWith_loads s true nnn⟩,
    fun _ _ p nnn s => execLdIAddrWith_loads s p.annnExtraAdvance nnn⟩

/-- Settles O44: both sides of the bound 0xFFFF. -/
theorem addToAddressRegister : Obligations.AddToAddressRegister := by
  unfold Obligations.AddToAddressRegister
  refine fun x s => ⟨decodeWord_encode (.addIVx x), fun h => ?adds, fun h => ?overflows⟩
  case adds => exact ⟨_, execAddIVx_of_le s x h, add_byteWord_toNat h, rfl, (completes_setI_advance s _).frame⟩
  case overflows => exact ⟨_, execAddIVx_of_gt s x h, _, byteWord_toNat _, takeFault_faultedFrom ..⟩

/-- Settles O45: a digit's five bytes lie inside the glyph region. -/
theorem glyphAddress : Obligations.GlyphAddress := by
  unfold Obligations.GlyphAddress
  refine fun x s => ⟨decodeWord_encode (.ldFVx x), _, rfl, glyphAddr_toNat _, rfl, (completes_setI_advance s _).frame,
    fun table hglyphs hd k hk => ?_⟩
  have haddr : (s.setI (glyphAddr (s.getV x))).advance.dataAddr k = 5 * (s.getV x).toNat + k :=
    congrArg (· + k) (glyphAddr_toNat (s.getV x))
  rw [haddr]
  exact hglyphs _ (show 5 * (s.getV x).toNat + k < 80 by omega)

/-! The timers (R212, R214, R215) -/

/-- The tick turns the tone on exactly where ST is above 0 (60_exceptions R295). -/
theorem tick_tone_iff {W H : Nat} (s : State.Sized W H) : s.tick.tone = true ↔ 0 < s.st.toNat := by
  rw [tick_tone, bne_iff_ne, ne_eq, ← BitVec.toNat_inj]
  exact Nat.pos_iff_ne_zero.symm

/-- Settles O42: each transfer writes one destination, and the tick after it counts that value down. -/
theorem timerTransfers : Obligations.TimerTransfers := by
  unfold Obligations.TimerTransfers
  refine fun x s => ⟨decodeWord_encode (.ldVxDT x), decodeWord_encode (.ldDTVx x), decodeWord_encode (.ldSTVx x),
    ?readDT, ?writeDT, ?writeST⟩
  case readDT =>
    exact ⟨_, rfl, writeBack_getV_same s x s.dt, rfl, (completes_writeBack s x s.dt).frame, tickDown_toNat s.dt⟩
  case writeDT => exact ⟨_, rfl, rfl, rfl, frame_setPc (frame_setDT s _) _, tickDown_toNat _⟩
  case writeST => exact ⟨_, rfl, rfl, rfl, frame_setPc (frame_setST s _) _, tickDown_toNat _, tick_tone_iff _⟩

/-! The key wait (R213) -/

section
variable {W H : Nat} {s : State.Sized W H}

theorem leastKey_of_least {k : Fin 16} (hk : s.keys[k] = true) (hleast : ∀ j : Fin 16, j < k → s.keys[j] = false) :
    s.leastKey = some k.val := by
  refine (leastKey_eq_some s k).2 ⟨(keyPressed_of_lt s k k.isLt).trans hk, fun j hj => ?_⟩
  have hj16 : j < 16 := hj.trans k.isLt
  exact (keyPressed_of_lt s j hj16).trans (hleast ⟨j, hj16⟩ hj)

theorem execLdVxK_of_some (x : Nibble) {k : Nat} (h : s.leastKey = some k) :
    execLdVxK x s = .next (s.writeBack x (BitVec.ofNat 8 k)) := by
  rw [execLdVxK, h]
  rfl

theorem execLdVxK_of_none (x : Nibble) (h : s.leastKey = none) : execLdVxK x s = .next s := by
  rw [execLdVxK, h]

theorem nextInstr_of_fetch {i : Instr} (hf : s.fault = none) (hfetch : s.fetch = some (encode i)) :
    s.nextInstr = some i := by
  rw [State.Sized.nextInstr, hf, hfetch]
  exact congrArg Except.toOption (decodeWord_encode i)

theorem waiting_of_fetch_ldVxK {x : Nibble} (hf : s.fault = none) (hfetch : s.fetch = some (encode (.ldVxK x))) :
    s.waiting = s.leastKey.isNone :=
  waiting_of_nextInstr_ldVxK (nextInstr_of_fetch hf hfetch)

end

/-- The step of a core that is not halted, on the word of an instruction that completes. -/
theorem step_of_completed {s t : State} {i : Instr} (hf : s.fault = none) (hfetch : s.fetch = some (encode i))
    (hexec : exec i s = .next t) (ht : t.fault = none) : step s = .next t.tick := by
  rw [step, cycle_of_decode hf hfetch (decodeWord_encode i), hexec, finishStep, finish_of_none t ht]

/-- Settles O43: the two answers of the search for a pressed key, as the instruction and as the step. -/
theorem keyWait : Obligations.KeyWait := by
  unfold Obligations.KeyWait
  refine fun x s => ⟨decodeWord_encode (.ldVxK x), fun k hk hleast => ?pressed, fun hkeys => ?blocked⟩
  case pressed =>
    have hkey := leastKey_of_least hk hleast
    have hexec := execLdVxK_of_some x hkey
    refine ⟨⟨_, hexec, ?_, rfl, (completes_writeBack s x _).frame⟩, fun hf hfetch => ?_⟩
    · rw [writeBack_getV_same, BitVec.toNat_ofNat, Nat.mod_eq_of_lt (by omega)]
    · have hstep := step_of_completed (i := .ldVxK x) hf hfetch hexec hf
      rw [stepResult_of_completed hstep hf, waiting_of_fetch_ldVxK hf hfetch, hkey]
      rfl
  case blocked =>
    have hnone := leastKey_isNone.2 hkeys
    have hexec := execLdVxK_of_none x (Option.isNone_iff_eq_none.1 hnone)
    refine ⟨⟨s, hexec, rfl, frame_refl s⟩, fun hf hfetch => ?_⟩
    have hstep := step_of_completed (i := .ldVxK x) hf hfetch hexec hf
    refine ⟨?_, hstep⟩
    rw [stepResult_of_completed hstep hf, waiting_of_fetch_ldVxK hf hfetch, hnone]
    rfl

end Sys2Proof.Proofs
end

section
/-! SUPPORT. The obligations of 42_memory_timers on memory (R218 to R220): the two stores, the load, and their round trip. -/

namespace Sys2Proof.Proofs

open Sys2Proof.Machine Sys2Proof.Safety

section
variable {W H : Nat} (s : State.Sized W H) (x : Nibble)

/-- What every data access does that is out of range. -/
theorem faults_memOutOfRange {r : Result W H} {w : Word}
    (hr : r = .next (s.takeFault .memOutOfRange (some w) s.lowestOutOfRange)) :
    ∃ t, r = .next t ∧ ∃ info : Word, info.toNat = max s.i.toNat 0x1000 ∧
      FaultedFrom s .memOutOfRange (some w) info t :=
  ⟨_, hr, _, lowestOutOfRange_toNat s, takeFault_faultedFrom ..⟩

/-- A stored byte read back. -/
theorem readByte_storeBytes_of_lt {bytes : List Byte} {k : Nat} (h : k < bytes.length) :
    (s.storeBytes bytes).readByte (s.dataAddr k) = bytes.getD k 0 := by
  rw [readByte_storeBytes, State.Sized.dataAddr, if_pos (by omega), Nat.add_sub_cancel_left]

/-! The decimal digits (R218) -/

theorem execLdBVx_of_in (hlo : 80 ≤ s.i.toNat) (hhi : s.i.toNat + 2 ≤ 0xFFF) :
    execLdBVx x s = .next (s.storeBytes (bcdDigits (s.getV x))).advance := by
  rw [execLdBVx, (storeFault_eq_none s 3).2 (.inr ⟨hlo, by omega⟩)]

theorem execLdBVx_of_out (h : s.i.toNat + 2 > 0xFFF) :
    execLdBVx x s = .next (s.takeFault .memOutOfRange (some (encode (.ldBVx x))) s.lowestOutOfRange) := by
  rw [execLdBVx, storeFault_of_out s 3 (by decide) (by omega)]
  rfl

/-- A digit of a byte fits in a byte. -/
theorem ofNat_toNat_of_le {b : Byte} {n : Nat} (h : n ≤ b.toNat) : (BitVec.ofNat 8 n).toNat = n :=
  Nat.mod_eq_of_lt (h.trans_lt b.isLt)

theorem hundreds_toNat (b : Byte) : ((bcdDigits b).getD 0 0).toNat = b.toNat / 100 :=
  ofNat_toNat_of_le (Nat.div_le_self ..)

theorem tens_toNat (b : Byte) : ((bcdDigits b).getD 1 0).toNat = b.toNat / 10 % 10 :=
  ofNat_toNat_of_le ((Nat.mod_le ..).trans (Nat.div_le_self ..))

theorem ones_toNat (b : Byte) : ((bcdDigits b).getD 2 0).toNat = b.toNat % 10 :=
  ofNat_toNat_of_le (Nat.mod_le ..)

/-! The registers V0 to Vx (R219, R220) -/

theorem execLdMemVx_of_in (hlo : 80 ≤ s.i.toNat) (hhi : s.i.toNat + x.toNat ≤ 0xFFF) :
    ∃ t, execLdMemVx x s = .next t ∧ (∀ r : Nibble, r ≤ x → t.readByte (s.dataAddr r.toNat) = s.getV r) ∧
      t.pc = s.pc + 2 ∧ Frame { stored := (s.dataAddr 0, x.toNat + 1) } s t := by
  have hlen := length_firstRegs s x
  have hexec : execLdMemVx x s = .next (s.storeBytes (s.firstRegs x)).advance := by
    rw [execLdMemVx, (storeFault_eq_none s (regCount x)).2 (.inr ⟨hlo, Nat.succ_le_succ hhi⟩)]
  refine ⟨_, hexec, fun r hr => ?_, rfl, hlen ▸ frame_setPc (frame_storeBytes s (s.firstRegs x)) _⟩
  have hlt : r.toNat < (s.firstRegs x).length := hlen ▸ Nat.lt_succ_of_le (BitVec.le_def.1 hr)
  exact (readByte_storeBytes_of_lt s hlt).trans (getD_firstRegs s x r hr 0)

theorem execLdMemVx_of_out (h : s.i.toNat + x.toNat > 0xFFF) :
    execLdMemVx x s = .next (s.takeFault .memOutOfRange (some (encode (.ldMemVx x))) s.lowestOutOfRange) := by
  rw [execLdMemVx, storeFault_of_out s (regCount x) (Nat.succ_pos _) (Nat.succ_lt_succ h)]
  rfl

theorem execLdVxMem_of_in (h : s.i.toNat + x.toNat ≤ 0xFFF) :
    ∃ t, execLdVxMem x s = .next t ∧
      (∀ r : Nibble, t.getV r = if r ≤ x then s.readByte (s.dataAddr r.toNat) else s.getV r) ∧
      t.pc = s.pc + 2 ∧ Frame { regs := allRegs } s t := by
  have hexec : execLdVxMem x s = .next (s.setFirstRegs (s.loadBytes (regCount x))).advance := by
    rw [execLdVxMem, (rangeFault_eq_none s (regCount x)).2 (.inr (Nat.succ_le_succ h))]
  refine ⟨_, hexec, fun r => ?_, rfl, (completes_setFirstRegs s _).frame⟩
  rw [advance_getV, getV_setFirstRegs, getD_loadBytes]
  exact if_congr (Nat.lt_succ_iff.trans BitVec.le_def.symm) rfl rfl

theorem execLdVxMem_of_out (h : s.i.toNat + x.toNat > 0xFFF) :
    execLdVxMem x s = .next (s.takeFault .memOutOfRange (some (encode (.ldVxMem x))) s.lowestOutOfRange) := by
  rw [execLdVxMem, rangeFault_of_out s (regCount x) (Nat.succ_pos _) (Nat.succ_lt_succ h)]
  rfl

end

/-- Settles O46: the three ranges of I, and in the middle one each digit as a number. -/
theorem storeDecimalDigits : Obligations.StoreDecimalDigits := by
  unfold Obligations.StoreDecimalDigits
  refine fun x s => ⟨decodeWord_encode (.ldBVx x), fun hlo hhi => ?stores, fun h => ?outOfRange, fun h => ?glyphWrite⟩
  case stores =>
    have hread {k : Nat} (hk : k < 3) := readByte_storeBytes_of_lt s (bytes := bcdDigits (s.getV x)) hk
    exact ⟨_, execLdBVx_of_in s x hlo hhi, (congrArg _ (hread (by decide))).trans (hundreds_toNat _),
      (congrArg _ (hread (by decide))).trans (tens_toNat _), (congrArg _ (hread (by decide))).trans (ones_toNat _), rfl,
      frame_setPc (frame_storeBytes s _) _⟩
  case outOfRange => exact faults_memOutOfRange s (execLdBVx_of_out s x h)
  case glyphWrite => exact ⟨_, execLdBVx_of_glyph x h, takeFault_faultedFrom ..⟩

/-- Settles O47: the three ranges of I. -/
theorem storeRegisters : Obligations.StoreRegisters := by
  unfold Obligations.StoreRegisters
  refine fun x s => ⟨decodeWord_encode (.ldMemVx x), execLdMemVx_of_in s x, fun h => ?outOfRange, fun h => ?glyphWrite⟩
  case outOfRange => exact faults_memOutOfRange s (execLdMemVx_of_out s x h)
  case glyphWrite => exact ⟨_, execLdMemVx_of_glyph x h, takeFault_faultedFrom ..⟩

/-- Settles O48: both ways the range check can go. -/
theorem loadRegisters : Obligations.LoadRegisters := by
  unfold Obligations.LoadRegisters
  exact fun x s => ⟨decodeWord_encode (.ldVxMem x), execLdVxMem_of_in s x,
    fun h => faults_memOutOfRange s (execLdVxMem_of_out s x h)⟩

/-- Settles O49: the store leaves I, so the load reads the bytes that were stored. -/
theorem storeLoadRoundTrip : Obligations.StoreLoadRoundTrip := by
  unfold Obligations.StoreLoadRoundTrip
  intro x s v hlo hhi
  obtain ⟨t, hstore, hread, -, -, hti, -⟩ := execLdMemVx_of_in s x hlo hhi
  have hi : t.i = s.i := hti rfl
  obtain ⟨u, hload, hregs, -, -, hui, -⟩ := execLdVxMem_of_in { t with v := v } x (hi ▸ hhi)
  refine ⟨t, u, hstore, hload, (hui rfl).trans hi, fun r => (hregs r).trans ?_⟩
  split
  case isTrue hr =>
    have haddr : ({ t with v := v } : State).dataAddr r.toNat = s.dataAddr r.toNat := by
      rw [State.Sized.dataAddr, State.Sized.dataAddr, hi]
    rw [haddr]
    exact hread r hr
  case isFalse => rfl

end Sys2Proof.Proofs
end

section
/-! SUPPORT. The framebuffer's operations (43_display R250 to R253) and CLS (R254). -/

namespace Sys2Proof.Proofs

open Sys2Proof.Machine Sys2Proof.Safety

section
variable {W H : Nat}

/-- A framebuffer is its pixels. -/
theorem framebuffer_ext {fb fb' : Framebuffer W H} (h : ∀ col row, fb.pixel col row = fb'.pixel col row) : fb = fb' := by
  refine Vector.ext fun row hrow => Vector.ext fun col hcol => ?_
  simpa only [Framebuffer.pixel, hrow, hcol, and_self, dite_true] using h col row

/-- get after set: an index of the display is its row and its column (10_state R39). -/
theorem get_put (fb : Framebuffer W H) {p : Nat} (hp : p < W * H) (q : Nat) (b : Bool) :
    (fb.put p b).get q = if q = p then b else fb.get q := by
  have hrow : p / W < H := Nat.div_lt_of_lt_mul hp
  have hcol : p % W < W := Nat.mod_lt p (Nat.pos_of_mul_pos_right (Nat.zero_lt_of_lt hp))
  have hsame : (q % W = p % W ∧ q / W = p / W ∧ p / W < H ∧ p % W < W) ↔ q = p :=
    ⟨fun ⟨hmod, hdiv, _, _⟩ => index_eq hmod hdiv, fun h => ⟨congrArg (· % W) h, congrArg (· / W) h, hrow, hcol⟩⟩
  exact (pixel_setPixel fb ..).trans (if_congr hsame rfl rfl)

end

/-- Settles O54: xor is a set of the old pixel XOR b. -/
theorem framebufferModel : Obligations.FramebufferModel := by
  unfold Obligations.FramebufferModel
  exact fun W H fb p q b hp _ => ⟨rfl, get_put fb hp q b, get_put fb hp q _⟩

/-- Settles O50. -/
theorem clearDisplay : Obligations.ClearDisplay := by
  unfold Obligations.ClearDisplay
  exact fun s => ⟨decodeWord_encode .cls, _, rfl, pixel_blank, rfl, frame_setPc (frame_setFb s _) _⟩

end Sys2Proof.Proofs
end

section
/-! SUPPORT. Drawing a sprite (43_display R255 to R259): the checks of `Dxyn`, and its pixels and flag as the landings of its
1-bits. -/

namespace Sys2Proof.Proofs

open Sys2Proof.Machine Sys2Proof.Safety

section
variable {W H : Nat} (policy : Config.VerticalPolicy) (s : State.Sized W H) (x y n : Nibble)

/-! The checks (R255, R257; 60_exceptions R283) -/

theorem drawFault_of_in (ys : Byte) {count : Nat} (h : count = 0 ∨ s.i.toNat + (count - 1) ≤ 0xFFF) :
    s.drawFault policy ys count =
      if policy = .fault ∧ 0 < count ∧ ys.toNat + (count - 1) ≥ H then some (.drawOutOfRange, byteWord ys) else none := by
  have hrange : s.rangeFault count = none := (rangeFault_eq_none s count).2 (by omega)
  rw [State.Sized.drawFault, hrange]

/-- The range check comes first, under every policy. -/
theorem drawFault_of_out (ys : Byte) {count : Nat} (hpos : 0 < count) (h : s.i.toNat + (count - 1) > 0xFFF) :
    s.drawFault policy ys count = some (.memOutOfRange, s.lowestOutOfRange) := by
  rw [State.Sized.drawFault, rangeFault_of_out s count hpos (by omega)]

/-! The two ends of an execution -/

theorem execDrwWith_of_fault {code : FaultCode} {info : Word} (h : s.drawFault policy (s.getV y) n.toNat = some (code, info)) :
    execDrwWith policy x y n s = .next (s.takeFault code (some (encode (.drwVxVyNibble x y n))) info) := by
  rw [execDrwWith, h]
  rfl

theorem execDrwWith_of_none (h : s.drawFault policy (s.getV y) n.toNat = none) :
    ∃ t, execDrwWith policy x y n s = .next t ∧ t.fb = (s.sprite policy x y n).fb ∧
      t.getV 0xF = bit (s.sprite policy x y n).hit ∧ t.pc = s.pc + 2 ∧ Frame { regs := [0xF], fb := true } s t := by
  have hexec : execDrwWith policy x y n s =
      .next ((s.setFb (s.sprite policy x y n).fb).setV flagReg (bit (s.sprite policy x y n).hit)).advance := by
    rw [execDrwWith, h]
  refine ⟨_, hexec, rfl, ?_, rfl, frame_setPc (frame_setFb_setV s _ _ _) _⟩
  rw [advance_getV, getV_setV, if_pos rfl]

theorem execDrwWith_of_fits (hbytes : n.toNat = 0 ∨ s.i.toNat + (n.toNat - 1) ≤ 0xFFF)
    (hrows : policy = .fault → 0 < n.toNat → (s.getV y).toNat + (n.toNat - 1) < H) :
    ∃ t, execDrwWith policy x y n s = .next t ∧ t.fb = (s.sprite policy x y n).fb ∧
      t.getV 0xF = bit (s.sprite policy x y n).hit ∧ t.pc = s.pc + 2 ∧ Frame { regs := [0xF], fb := true } s t := by
  refine execDrwWith_of_none policy s x y n ((drawFault_of_in policy s _ hbytes).trans (if_neg ?_))
  rintro ⟨hpolicy, hpos, hout⟩
  exact absurd (hrows hpolicy hpos) (not_lt.2 hout)

/-! The sprite by the landings of its 1-bits -/

theorem sprite_eq_foldl_landings :
    s.sprite policy x y n = (landings policy s x y n).foldl visit { fb := s.fb, hit := false } := by
  rw [State.Sized.sprite, drawRows_eq, landings_eq]

theorem landings_lt (hW : 0 < W) (hH : 0 < H) : ∀ q ∈ landings policy s x y n, q.1 < W ∧ q.2 < H := by
  rw [landings_eq]
  exact spriteVisits_lt policy _ _ _ hW hH

/-- Each pixel is flipped as often as a 1-bit lands on it. -/
theorem pixel_sprite (hW : 0 < W) (hH : 0 < H) (col row : Nat) :
    (s.sprite policy x y n).fb.pixel col row =
      (s.fb.pixel col row != decide ((landings policy s x y n).count (col, row) % 2 = 1)) := by
  rw [sprite_eq_foldl_landings]
  exact (foldl_visit _ (landings_lt policy s x y n hW hH) _).1 (col, row)

/-- There is a hit where a 1-bit lands on a pixel that was on, or two land on one pixel. -/
theorem hit_sprite (hW : 0 < W) (hH : 0 < H) :
    (s.sprite policy x y n).hit = true ↔
      ∃ q ∈ landings policy s x y n, s.fb.pixel q.1 q.2 = true ∨ 2 ≤ (landings policy s x y n).count q := by
  rw [sprite_eq_foldl_landings, (foldl_visit _ (landings_lt policy s x y n hW hH) _).2]
  exact or_iff_right Bool.false_ne_true

/-- The landings depend on the coordinates, I and memory. -/
theorem landings_congr {s t : State.Sized W H} (hx : t.getV x = s.getV x) (hy : t.getV y = s.getV y) (hi : t.i = s.i)
    (hmem : ∀ a, t.readByte a = s.readByte a) : landings policy t x y n = landings policy s x y n := by
  simp only [landings, State.Sized.dataAddr, hx, hy, hi, hmem]

theorem bit_of_iff {b : Bool} {P : Prop} (h : b = true ↔ P) : (P → bit b = 1) ∧ (¬ P → bit b = 0) :=
  ⟨fun hP => by rw [h.2 hP]; rfl, fun hP => by rw [Bool.eq_false_iff.2 (mt h.1 hP)]; rfl⟩

/-- Under wrap with no more rows than the display, and under the other policies, no pixel is visited twice: the sprite is drawn as
its covered pixels say (R255, R258, R259). -/
theorem drawn_of_sprite {t : State.Sized W H} (hW : 8 ≤ W) (hH : 0 < H) (hwrap : policy = .wrap → n.toNat ≤ H)
    (hfb : t.fb = (s.sprite policy x y n).fb) (hflag : t.getV 0xF = bit (s.sprite policy x y n).hit) :
    Drawn policy s x y n t := by
  obtain ⟨hpixel, hhit⟩ := drawRows_spec policy (s.getV x).toNat (s.getV y).toNat (s.loadBytes n.toNat) hW hH
    (by rwa [length_loadBytes]) { fb := s.fb, hit := false }
  rw [← landings_eq policy s x y n] at hpixel hhit
  have hcovered : (s.sprite policy x y n).hit = true ↔
      ∃ col row, col < W ∧ row < H ∧ Covers policy s x y n col row ∧ s.fb.pixel col row = true := by
    refine hhit.trans ((or_iff_right Bool.false_ne_true).trans ⟨?_, ?_⟩)
    · rintro ⟨⟨col, row⟩, hq, hon⟩
      obtain ⟨hcol, hrow⟩ := landings_lt policy s x y n (by omega) hH _ hq
      exact ⟨col, row, hcol, hrow, (mem_landings policy s x y n hrow).1 hq, hon⟩
    · rintro ⟨col, row, -, hrow, hcovers, hon⟩
      exact ⟨(col, row), (mem_landings policy s x y n hrow).2 hcovers, hon⟩
  rw [Drawn, hfb, hflag]
  refine ⟨fun col row _ hrow => ?_, bit_of_iff hcovered⟩
  rw [← mem_landings policy s x y n hrow]
  exact hpixel (col, row)

end

/-- Settles O60: the canvas of the loop, read off the landings. -/
theorem drawAtEverySize : Obligations.DrawAtEverySize := by
  unfold Obligations.DrawAtEverySize
  intro W H p x y n s hW hH hbytes hrows
  have hpos : 0 < W := by omega
  obtain ⟨t, hexec, hfb, hflag, hpc, hframe⟩ := execDrwWith_of_fits p.drawVertical s x y n hbytes hrows
  obtain ⟨hset, hclear⟩ := bit_of_iff (hit_sprite p.drawVertical s x y n hpos hH)
  rw [← hflag] at hset hclear
  exact ⟨t, hexec, fun col row => hfb ▸ pixel_sprite p.drawVertical s x y n hpos hH col row, hset, hclear, hpc, hframe⟩

/-- Settles O52: the three ends of the checks. -/
theorem drawPolicies : Obligations.DrawPolicies := by
  unfold Obligations.DrawPolicies
  refine ⟨fun _ _ _ _ => rfl, fun W H p x y n s hW hH => ⟨fun hbytes hrows hwrap => ?draws,
    fun hpolicy hpos hbytes hout => ?rowsOut, fun hpos hout => ?bytesOut⟩⟩
  case draws =>
    obtain ⟨t, hexec, hfb, hflag, hpc, hframe⟩ := execDrwWith_of_fits p.drawVertical s x y n hbytes hrows
    exact ⟨t, hexec, drawn_of_sprite _ s x y n hW hH hwrap hfb hflag, hpc, hframe⟩
  case rowsOut =>
    have hfault := (drawFault_of_in p.drawVertical s (s.getV y) (.inr hbytes)).trans (if_pos ⟨hpolicy, hpos, hout⟩)
    exact ⟨_, execDrwWith_of_fault _ s x y n hfault, _, byteWord_toNat _, takeFault_faultedFrom ..⟩
  case bytesOut =>
    exact faults_memOutOfRange s (execDrwWith_of_fault _ s x y n (drawFault_of_out p.drawVertical s (s.getV y) hpos hout))

/-- Settles O51: this hardware is the case of 64 by 32 pixels under clip. -/
theorem drawSprite : Obligations.DrawSprite := by
  unfold Obligations.DrawSprite
  intro x y n s
  obtain ⟨hdraws, -, hfaults⟩ := drawPolicies.2 64 32 Config.params x y n s (by decide) (by decide)
  rw [execWith_default] at hdraws hfaults
  exact ⟨decodeWord_encode (.drwVxVyNibble x y n), fun hbytes => hdraws hbytes nofun nofun, hfaults⟩

/-- Settles O53: the flag is no coordinate, so the second drawing lands where the first did and flips each pixel as often again. -/
theorem redrawErases : Obligations.RedrawErases := by
  unfold Obligations.RedrawErases
  intro x y n s hx hy hbytes
  have hdraw (u : State) := drawAtEverySize 64 32 Config.params x y n u (by decide) (by decide)
  simp only [execWith_default] at hdraw
  obtain ⟨t, hfirst, hpixels, -, -, -, hregs, hi, -, -, -, -, -, hmem, -⟩ := hdraw s hbytes nofun
  have hti : t.i = s.i := hi rfl
  obtain ⟨u, hsecond, hpixels', -⟩ := hdraw t (hti ▸ hbytes) nofun
  have hlandings : landings Config.params.drawVertical t x y n = landings Config.params.drawVertical s x y n :=
    landings_congr _ x y n (hregs x (by simpa using hx)) (hregs y (by simpa using hy)) hti
      fun a => hmem a (.inr (Nat.zero_le a))
  refine ⟨t, u, hfirst, hsecond, framebuffer_ext fun col row => ?_⟩
  rw [hpixels', hpixels, hlandings, Bool.bne_assoc, bne_self_eq_false, Bool.bne_false]

end Sys2Proof.Proofs
end

section
/-! SUPPORT. The obligations of 60_exceptions: what a fault leaves as it was and who raises it, the timer tick and the tone, and what the
host's operations can reach. -/

namespace Sys2Proof.Proofs

open Sys2Proof.Machine Sys2Proof.Safety

/-! Faults (60_exceptions R281, R282, R284; D11) -/

section
variable {W H : Nat} {p : Config.Params} {i : Instr} {s t : State.Sized W H} {r : FaultRecord}

/-- The record of a taken fault holds its code and info. -/
theorem eq_takeFault_record {code : FaultCode} {word : Option Word} {info : Word} (h : t = s.takeFault code word info)
    (hr : t.fault = some r) : t = s.takeFault r.code word r.info := by
  subst h
  obtain rfl := Option.some.inj hr
  rfl

/-- An execution that ends with a fault record raised it, and the instruction may raise it. -/
theorem execWith_faulted (hf : s.fault = none) (hexec : execWith p i s = .next t) (hr : t.fault = some r) :
    MayRaise p.drawVertical i r.code ∧ t = s.takeFault r.code (some (encode i)) r.info := by
  rcases execWith_cases p i s with ⟨code, info, hmay, h⟩ | ⟨u, h, hc⟩
  · have ht : t = s.takeFault code (some (encode i)) info := Host.Outcome.next.inj (hexec.symm.trans h)
    have hcode : r.code = code := by rw [ht] at hr; exact congrArg FaultRecord.code (Option.some.inj hr).symm
    exact ⟨hcode ▸ hmay, eq_takeFault_record ht hr⟩
  · obtain rfl : u = t := Host.Outcome.next.inj (h.symm.trans hexec)
    rw [hc.fault, hf] at hr
    cases hr

/-- A step that ends with a fault record took that fault, with the fetched word: at the fetch, at the decode, or in an instruction, which
is the decoded word's own. -/
theorem stepWith_faulted (hf : s.fault = none) (hstep : stepWith p s = .next t) (hr : t.fault = some r) :
    t = s.takeFault r.code s.fetch r.info := by
  rcases cycle_cases (execWith p) s with
    ⟨r', hhalted, -⟩ | ⟨-, hfetch, h⟩ | ⟨w, e, -, hfetch, -, h⟩ | ⟨w, i, -, hfetch, hdecode, h⟩
  · rw [hf] at hhalted
    cases hhalted
  · exact eq_takeFault_record (hfetch ▸ Host.Outcome.next.inj (hstep.symm.trans h)) hr
  · exact eq_takeFault_record (hfetch ▸ Host.Outcome.next.inj (hstep.symm.trans h)) hr
  · obtain ⟨u, hexec⟩ := execWith_next p i s
    have ht : t = u.finish := Host.Outcome.next.inj (hstep.symm.trans (h.trans (congrArg finishStep hexec)))
    have hu : u.fault = some r := by rw [← finish_fault, ← ht, hr]
    rw [ht, finish_of_fault u hu, hfetch, ← encode_of_decodeWord hdecode]
    exact (execWith_faulted hf hexec hu).2

end

/-- Settles O11: a step that faults is the taking of that fault, at every value of the parameters. -/
theorem faultsAreAtomic : Obligations.FaultsAreAtomic := by
  unfold Obligations.FaultsAreAtomic
  refine ⟨fun s t r hf hstep hr => ?_, fun W H p s t r hf hstep hr => ?_⟩
  · rw [← stepWith_default] at hstep
    exact stepWith_faulted hf hstep hr ▸ takeFault_faultedFrom ..
  · exact stepWith_faulted hf hstep hr ▸ takeFault_faultedFrom ..

/-- Settles O23: this hardware is the case of clip. -/
theorem whoRaisesWhat : Obligations.WhoRaisesWhat := by
  unfold Obligations.WhoRaisesWhat
  refine ⟨fun W H p i s t r hf hexec hr => (execWith_faulted hf hexec hr).1, fun i s t r hf hexec hr => ?_⟩
  rw [← execWith_default] at hexec
  exact (execWith_faulted hf hexec hr).1

/-! The timer tick (R293, R295; D24, D25) -/

/-- A step that ends halted does not tick. -/
theorem StepMove.timers_of_fault {W H : Nat} {s t : State.Sized W H} (hmove : StepMove s t) (ht : t.fault ≠ none) :
    t.dt = s.dt ∧ t.st = s.st := by
  cases hmove with
  | halted | faulted => exact ⟨rfl, rfl⟩
  | completed hf _ _ hc => exact absurd (hc.fault.trans hf) ht

/-- Settles O12: a completed step ends in the tick of the instruction's end state. -/
theorem timersTick : Obligations.TimersTick := by
  unfold Obligations.TimersTick
  refine ⟨fun s u i w hf hfetch hdecode hexec hu => ?_, fun s t hstep => (stepMove_of_step hstep).timers_of_fault⟩
  obtain rfl := encode_of_decodeWord hdecode
  exact ⟨u.tick, step_of_completed hf hfetch hexec hu, tick_tone_iff u, tickDown_toNat u.dt, tickDown_toNat u.st, rfl⟩

/-! The tone after `Fx18` (R295, D24) -/

theorem after_succ (n : Nat) (s : State) : after (n + 1) s = stateAfter (after n s) := by
  induction n generalizing s with
  | zero => rfl
  | succ n ih => exact ih (stateAfter s)

theorem nextInstr_eq_some {W H : Nat} {s : State.Sized W H} {i : Instr} :
    s.nextInstr = some i ↔ s.fault = none ∧ s.fetch = some (encode i) := by
  refine ⟨fun h => ?_, fun ⟨hf, hfetch⟩ => nextInstr_of_fetch hf hfetch⟩
  unfold State.Sized.nextInstr at h
  split at h
  · next w hf hfetch =>
    rcases hd : decodeWord w with e | j <;> rw [hd] at h <;> cases h
    exact ⟨hf, by rw [hfetch, encode_of_decodeWord hd]⟩
  · cases h

/-- The step of `Fx18` ticks the value it has written. -/
theorem stateAfter_of_ldSTVx {s : State} {x : Nibble} (h : s.nextInstr = some (.ldSTVx x)) :
    stateAfter s = (s.setST (s.getV x)).advance.tick := by
  obtain ⟨hf, hfetch⟩ := nextInstr_eq_some.1 h
  exact stateAfter_of_next (step_of_completed (i := .ldSTVx x) hf hfetch rfl hf)

/-- A completed step of any other instruction ticks ST as it was. -/
theorem stateAfter_eq_tick_of_ne_ldSTVx {s : State} (ht : (stateAfter s).fault = none)
    (hne : ∀ y, s.nextInstr ≠ some (.ldSTVx y)) : ∃ u : State, stateAfter s = u.tick ∧ u.st = s.st := by
  obtain ⟨t, hstep⟩ := stepAlwaysAnswers.1 s
  rw [stateAfter_of_next hstep] at ht ⊢
  cases stepMove_of_step hstep with
  | halted hf => exact absurd ht hf
  | faulted => cases ht
  | @completed hf w i u hfetch hdecode hc =>
    obtain rfl := encode_of_decodeWord hdecode
    have hst : (mayChange i s).st = false :=
      mayChange_st s fun y hy => hne y (hy ▸ nextInstr_of_fetch hf hfetch)
    obtain ⟨-, -, -, -, hkept, -⟩ := hc.frame
    exact ⟨u, rfl, hkept hst⟩

/-- Step k + 1 of such a run ticks the ST that k ticks have left of v. -/
theorem after_eq_tick {s : State} {x : Nibble} {n : Nat} (hfirst : s.nextInstr = some (.ldSTVx x))
    (hcompletes : ∀ k, k < n → (after (k + 1) s).fault = none)
    (hlater : ∀ k, 0 < k → k < n → ∀ y : Nibble, (after k s).nextInstr ≠ some (.ldSTVx y)) (k : Nat) (hk : k < n) :
    ∃ u : State, after (k + 1) s = u.tick ∧ u.st.toNat = (s.getV x).toNat - k := by
  induction k with
  | zero => exact ⟨_, stateAfter_of_ldSTVx hfirst, rfl⟩
  | succ k ih =>
    obtain ⟨u, hu, hst⟩ := ih (by omega)
    have hfault := hcompletes (k + 1) hk
    rw [after_succ] at hfault
    obtain ⟨u', hu', hst'⟩ := stateAfter_eq_tick_of_ne_ldSTVx hfault (hlater (k + 1) (Nat.succ_pos k) hk)
    refine ⟨u', (after_succ (k + 1) s).trans hu', ?_⟩
    rw [hst', hu, tick_st, tickDown_toNat, hst, Nat.sub_sub]

/-- Settles O13: the tone of step k + 1 is that of the ST it ticks. -/
theorem toneForExactlyVSteps : Obligations.ToneForExactlyVSteps := by
  unfold Obligations.ToneForExactlyVSteps
  intro s x n hfirst hcompletes hlater k hpos hk
  obtain ⟨k, rfl⟩ := Nat.exists_eq_add_one.2 hpos
  obtain ⟨u, hu, hst⟩ := after_eq_tick hfirst hcompletes hlater k hk
  rw [hu, tick_tone_iff, tick_st, tickDown_toNat, hst]
  omega

/-! The host's operations (R300) -/

/-- Everything a host operation other than `reset()` and `step()` can do to the state. -/
theorem hostCall_state_cases {c : HostCall} (s : State) (hreset : c ≠ .reset) (hstep : c ≠ .step) :
    (hostCall c s).2 = s ∨ (∃ bytes, (hostCall c s).2 = s.setMem (Memory.writeBytes s.mem 0x200 bytes)) ∨
      ∃ keys, (hostCall c s).2 = { s with keys := keys } := by
  unfold hostCall
  cases c with
  | reset => exact absurd rfl hreset
  | step => exact absurd rfl hstep
  | loadProgram bytes =>
    rcases hostCallBy_loadProgram_cases step Config.glyphTable bytes s with ⟨-, h⟩ | ⟨-, h⟩ <;> rw [h]
    · exact .inr (.inl ⟨bytes, rfl⟩)
    · exact .inl rfl
  | setKey index pressed =>
    rcases hostCallBy_setKey_cases step Config.glyphTable index pressed s with ⟨-, -, h⟩ | ⟨-, h⟩ <;> rw [h]
    · exact .inr (.inr ⟨_, rfl⟩)
    · exact .inl rfl
  | getPixel index => exact .inl (hostCallBy_getPixel_state ..)
  | delayTimerExpired | soundTimerExpired | readState => exact .inl rfl

/-- Settles O59: such an operation changes nothing, or writes an image from 0x200 upwards, or writes keys. -/
theorem hostOperationsFrame : Obligations.HostOperationsFrame := by
  unfold Obligations.HostOperationsFrame
  intro c s hreset hstep
  rcases hostCall_state_cases s hreset hstep with h | ⟨bytes, h⟩ | ⟨keys, h⟩ <;> rw [h]
  · exact ⟨rfl, fun _ _ => rfl⟩
  · refine ⟨rfl, fun a ha => ?_⟩
    rw [readByte_setMem, Memory.read_writeBytes, if_neg (by omega)]
    rfl
  · exact ⟨rfl, fun _ _ => rfl⟩

end Sys2Proof.Proofs
end

section
/-! SUPPORT. The obligations of 70_reset_and_hazards: the state and the invariants at reset (R331, R334), and the good end of a run (R343). -/

namespace Sys2Proof.Proofs

open Sys2Proof.Machine Sys2Proof.Safety

/-! The good end (R343, D38) -/

section
variable {W H : Nat} {s t : State.Sized W H}

theorem clockOnly_refl : ClockOnly s s := ⟨rfl, rfl, rfl, rfl, rfl, rfl, rfl, rfl, rfl, rfl⟩

/-- The tick writes nothing that `ClockOnly` compares. -/
theorem clockOnly_tick (h : ClockOnly s t) : ClockOnly s t.tick := h

/-- The next instruction is read from FAULT, PC and memory, none of which is the clock's. -/
theorem nextInstr_of_clockOnly (h : ClockOnly s t) : t.nextInstr = s.nextInstr := by
  obtain ⟨-, -, hpc, -, -, -, -, hmem, hfault, -⟩ := h
  simp only [State.Sized.nextInstr, State.Sized.fetch, State.Sized.readByte, hpc, hmem, hfault]

theorem idle_of_clockOnly (hidle : Idle s) (h : ClockOnly s t) : Idle t := by
  obtain ⟨nnn, hnext, htarget⟩ := hidle
  have hnext' : t.nextInstr = some (.jpAddr nnn) := (nextInstr_of_clockOnly h).trans hnext
  obtain ⟨-, -, hpc, -⟩ := h
  exact ⟨nnn, hnext', htarget.trans hpc.symm⟩

theorem execJpAddr_of_self {nnn : Addr} (h : addrWord nnn = s.pc) : execJpAddr nnn s = .next s := by
  rw [execJpAddr, h]
  rfl

end

section
variable {s : State}

/-- A jump to itself leaves PC where it is, so that the step is the tick alone. -/
theorem step_of_idle (h : Idle s) : step s = .next s.tick := by
  obtain ⟨nnn, hnext, htarget⟩ := h
  obtain ⟨hf, hfetch⟩ := nextInstr_eq_some.1 hnext
  exact step_of_completed (i := .jpAddr nnn) hf hfetch (execJpAddr_of_self htarget) hf

/-- The jump faults nowhere and waits for no key. -/
theorem stepResult_of_idle (h : Idle s) : stepResult s = .ok := by
  have hstep := step_of_idle h
  obtain ⟨nnn, hnext, -⟩ := h
  have hwaiting : s.waiting = false := waiting_of_nextInstr_ne (by simp [hnext])
  rw [stepResult_of_completed hstep (nextInstr_eq_some.1 hnext).1, hwaiting]
  rfl

theorem clockOnly_after_of_idle (h : Idle s) (n : Nat) : ClockOnly s (after n s) := by
  induction n with
  | zero => exact clockOnly_refl
  | succ n ih =>
    rw [after_succ, stateAfter_of_next (step_of_idle (idle_of_clockOnly h ih))]
    exact clockOnly_tick ih

end

/-- Settles O55: the clock is all that n steps have moved, so the core is still idle and its next step is Ok. -/
theorem idleForever : Obligations.IdleForever := by
  unfold Obligations.IdleForever
  intro s n h
  have hclock := clockOnly_after_of_idle h n
  have hidle := idle_of_clockOnly h hclock
  exact ⟨hidle, stepResult_of_idle hidle, hclock⟩

/-! Reset (R331, R334; D1, D3, D26) -/

section
variable {W H : Nat} (table : Config.GlyphTable) (s : State.Sized W H)

theorem hostResetWith_getV (r : Nibble) : (hostResetWith table s).getV r = 0 := Vector.getElem_replicate ..

theorem hostResetWith_stack (j : Fin 16) : (hostResetWith table s).stack[j] = 0 := Vector.getElem_replicate ..

theorem hostResetWith_keys (k : Fin 16) : (hostResetWith table s).keys[k] = false := Vector.getElem_replicate ..

theorem hostResetWith_readByte (a : Nat) : (hostResetWith table s).readByte a = table.byteAt a :=
  Memory.read_resetWith table a

end

/-- Settles O15: at the defaults by `hostReset_eq`; in general component by component, the memory read through the table. -/
theorem resetState : Obligations.ResetState := by
  unfold Obligations.ResetState
  refine ⟨State.Sized.resetWith_default, fun s => congrArg (Prod.mk HostReply.ok) (hostReset_eq s), fun W H p s => ?_⟩
  refine ⟨hostResetWith p.glyphTable s, rfl, rfl, hostResetWith_getV _ s, rfl, rfl, rfl, hostResetWith_stack _ s, rfl, rfl,
    hostResetWith_keys _ s, pixel_blank, fun a ha => ?glyph, fun a ha => ?zero, rfl, rfl, rfl⟩
  case glyph => rw [hostResetWith_readByte, byteAt_of_lt _ a ha]
  case zero => rw [hostResetWith_readByte, byteAt_of_ge _ a ha]

/-! The invariants at reset (R331; 20_memory R63, R66) -/

theorem pcBounded_resetWith {W H : Nat} (table : Config.GlyphTable) : PcBounded (State.Sized.resetWith table : State.Sized W H) :=
  pcBounded_reset table (State.Sized.resetWith table)

theorem silentWhenHalted_resetWith {W H : Nat} (table : Config.GlyphTable) :
    SilentWhenHalted (State.Sized.resetWith table : State.Sized W H) := fun _ => rfl

/-- Settles O16: at every table, and the core's own reset is the one of the default table. -/
theorem invariantsAtReset : Obligations.InvariantsAtReset := by
  unfold Obligations.InvariantsAtReset
  rw [← State.Sized.resetWith_default]
  exact ⟨fun W H table => ⟨Memory.resetWith_wf table, pcBounded_resetWith table, glyphsIntact_resetWith table,
      silentWhenHalted_resetWith table⟩,
    Memory.resetWith_wf _, pcBounded_resetWith _, glyphsIntact_resetWith _, silentWhenHalted_resetWith _⟩

end Sys2Proof.Proofs
end
